-- ==== Sys2Proof/Word.lean ====
section
/-! DEFINITION. The widths of the engine's words (00_scope.md R5, R7; 10_state.md R16, R17; 30_encoding.md R37, R38).
Every value is an unsigned integer of a stated width; bit 0 is the least significant bit. -/

namespace Sys2Proof

/-- `u64`: `s`, `x`, `w`, an index, a derived seed, a LUT entry (R5, `XLEN`). -/
abbrev U64 := BitVec 64

/-- `u32`: an ADVANCE result, a draw, a Sample result (R5, `OUTLEN`). -/
abbrev U32 := BitVec 32

/-- `u16`: the used-value bitmask `c` (R5, `MASKLEN`). -/
abbrev U16 := BitVec 16

/-- The filled-bit count `m` (R16). -/
abbrev U6 := BitVec 6

/-- The window position `i` and the table index `ti` (R16, R17). -/
abbrev U5 := BitVec 5

/-- `u4`: a nibble (R5, `NIB`). -/
abbrev U4 := BitVec 4

/-- A command word `cmd[65:0]` (R37). -/
abbrev CmdWord := BitVec 66

/-- A response word `rsp[65:0]` (R38). -/
abbrev RspWord := BitVec 66

end Sys2Proof
end

