-- ==== Sys2Proof/Config.lean ====
section
/-! DEFINITION. What an implementation fixes and the spec leaves open (00_scope.md R5, R6): the contents of the
constant LUT, and the one bound of the model's own (the draws one step of the model makes). -/

namespace Sys2Proof

/-- `BUCKET_WIDTH`, the width of a seed bucket (R5). -/
def Config.bucketWidth : U64 := 100000000#64

/-- `TABLE_LEN`, the number of LUT entries (R5). -/
def Config.tableLen : U64 := 30#64

/-- The entry the spec recovers from the source's known answers (R6 (a), R26; 91_not_in_source.md N1). DEDUCED by
the spec, log 5; unsafe if the recovery is wrong. -/
def Config.table0 : U64 := 0x8b5ad4ce914ecdf7#64

/-- FREE VALUE: bits 63 to 1 of `TABLE[1]` to `TABLE[29]`, which the source does not give (R6 (a), D16, U3).
It has no body, so nothing can be proved of its values; log 5. -/
opaque Config.tableUpper : Fin 30 → BitVec 63

/-- `TABLE` (R6 (a), R26): 30 odd words. Bit 0 of the open entries is 1 by construction, which is the spec's premise
on the configuration (U4, D17): every odd 64-bit word is such an entry and no even one is. -/
def Config.table (e : Fin 30) : U64 :=
  if e.val = 0 then Config.table0 else Config.tableUpper e ++ 1#1

/-- How many draws one model step gives each SAMPLE before it leaves the engine busy in the middle of the sampling
(the following steps go on, stage by stage). DESIGN CHOICE, log 7: safe, no response depends on it. -/
def Config.drawsPerStep : Nat := 64

end Sys2Proof
end

