-- ==== Sys2Proof/Syntax.lean ====
section
/-! DEFINITION. The commands as syntax: one constructor per row of opcode_table.json (30_encoding.md R35, R37, R46). -/

namespace Sys2Proof

/-- A decoded command. ADVANCE and the reserved command carry no operand: their `arg` is ignored, so all words of the
row are the same command (R40, R41, R46). -/
inductive Instr where
  /-- `op = 0b00`, reserved: answered ILLEGAL_CMD (60_exceptions.md R82). -/
  | illegal
  /-- `op = 0b01`, `arg = seed` (41_generator.md R58). -/
  | construct (seed : U64)
  /-- `op = 0b10` (41_generator.md R59). -/
  | advance
  /-- `op = 0b11`, `arg = index` (42_seed_deriver.md R63). -/
  | deriveSeed (index : U64)
deriving DecidableEq, Repr

end Sys2Proof
end

