-- ==== Sys2Proof/WellFormed.lean ====
section
/-! DEFINITION. Well-formedness (30_encoding.md R37, R39, R41, R42, R46). An operand is any 64-bit value, so the
operands carry no check; what can be ill-formed is a WORD: one that is no 66-bit word, and one that is a command but
not its canonical spelling. -/

namespace Sys2Proof

/-- Every abstract command is well-formed: `arg` is "not sign-extended, scaled, shifted or range-checked" (R39). -/
def Instr.wellFormed : Instr → Bool
  | .illegal => true
  | .construct _ => true
  | .advance => true
  | .deriveSeed _ => true

/-- A number that is a command word: "every command is one 66-bit word" (R37, R42). -/
def isCommandWord (n : Nat) : Bool := decide (n < 2 ^ 66)

/-- The canonical spelling of a command: where `arg` is ignored (ADVANCE, R41; the reserved code, R40), it is 0.
The spec names the canonical word of ADVANCE (R46); that of the reserved code is a DESIGN CHOICE, log 14, safe. -/
def isCanonical (w : CmdWord) : Bool :=
  if w.extractLsb' 64 2 = 0b00#2 ∨ w.extractLsb' 64 2 = 0b10#2 then w.extractLsb' 0 64 == 0#64 else true

end Sys2Proof
end

