-- ==== Sys2Proof/Decode.lean ====
section
/-! DEFINITION. Decoding and encoding of command words (30_encoding.md R37, R46). The decoder is total on 66-bit
words; a number that is no 66-bit word is refused by name. -/

namespace Sys2Proof

/-- `op = cmd[65:64]` (R37). -/
def opField (w : CmdWord) : BitVec 2 := w.extractLsb' 64 2

/-- `arg = cmd[63:0]` (R37). -/
def argField (w : CmdWord) : U64 := w.extractLsb' 0 64

/-- `decode(cmd)` (R46): total, selected by `op` alone. -/
def decode (w : CmdWord) : Instr :=
  if opField w = 0b00#2 then .illegal
  else if opField w = 0b01#2 then .construct (argField w)
  else if opField w = 0b10#2 then .advance
  else .deriveSeed (argField w)

/-- Why a number is not decoded. -/
inductive DecodeError where
  /-- It has a bit at position 66 or above: no command word is that wide (R37, R42). Raised by `decodeNumber`; safe. -/
  | widerThanACommandWord
deriving DecidableEq, Repr

/-- The command that the bits of `n` are, bit 0 of the word being bit 0 of `n`. -/
def decodeNumber (n : Nat) : Except DecodeError Instr :=
  if isCommandWord n then .ok (decode (BitVec.ofNat 66 n)) else .error .widerThanACommandWord

/-- The command word `{op, arg}` (R37, R44). -/
def commandWord (op : BitVec 2) (arg : U64) : CmdWord := op ++ arg

/-- `encode`, the canonical spelling of a command (R46; for the reserved code log 14). -/
def encode : Instr → CmdWord
  | .illegal => commandWord 0b00#2 0#64
  | .construct seed => commandWord 0b01#2 seed
  | .advance => commandWord 0b10#2 0#64
  | .deriveSeed index => commandWord 0b11#2 index

/-- What the decoder reads from a table word of `nbits` bits (bits above them are 0). A command is one whole word with
no byte order (20_memory.md R29), so the word is the number itself; log 16. -/
def decodeTableWord (nbits w : Nat) : Option Instr :=
  match decodeNumber (w % 2 ^ nbits) with
  | .ok i => some i
  | .error _ => none

end Sys2Proof
end

