-- ==== Sys2Proof/Machine/State.lean ====
section
/-! DEFINITION. The state of the engine, whole (10_state.md R10 to R24), as plain data; its reset value; the reasons
a step can stop; one named update per field. -/

namespace Sys2Proof.Machine

/-- A context: one set of the registers `(s, x, w)` (00_scope.md R9). -/
structure Context where
  /-- `seed`: the Weyl increment (R10). -/
  s : U64
  /-- `output`: squared and rotated each step (R11). -/
  x : U64
  /-- `weyl`: the Weyl accumulator (R12). -/
  w : U64
deriving DecidableEq, Repr

/-- The sampler registers (R16). -/
structure Sampler where
  /-- Accumulator of accepted nibbles. -/
  a : U32
  /-- Used-value bitmask. -/
  c : U16
  /-- Filled-bit count: 0, 4, ..., 32. -/
  m : U6
  /-- The current draw. -/
  j : U32
  /-- The window position inside `j`: 0, 4, ..., 28. -/
  i : U5
  /-- The nibble in the current window. -/
  k : U4
deriving DecidableEq, Repr

/-- The orchestrator registers (R17). -/
structure Orchestrator where
  /-- The command's argument. -/
  index : U64
  /-- `index div 100_000_000`. -/
  bucket : U64
  /-- `index mod 100_000_000`. -/
  offset : U64
  /-- Table index, `bucket mod 30`. -/
  ti : U5
  /-- `TABLE[ti]`. -/
  tseed : U64
  /-- `bucket div 30`. -/
  bucket2 : U64
  /-- Starting value of `T.x` and `T.w`. -/
  initial : U64
  /-- First Sample result. -/
  high : U32
  /-- Second Sample result. -/
  low : U32
deriving DecidableEq, Repr

/-- Which of the two SAMPLE runs of a DERIVE_SEED: stage DRV_HI or DRV_LO (R18, 42_seed_deriver.md R69). -/
inductive Half where
  | high
  | low
deriving DecidableEq, Repr

/-- The stages inside SAMPLE (R18): SMP_CLEAR; SMP_DRAW as the five stages of a GenStep on T; SMP_SCAN at the window
the register `i` holds. -/
inductive SampleStage where
  | clear
  | drawSquare
  | drawWeyl
  | drawSum
  | drawRotate
  | drawOut
  | scan
deriving DecidableEq, Repr

/-- The sequencer `ph` (R18): IDLE, or the stage in progress. The stage names are the spec's. The stages of CONSTRUCT
carry the seed of the command being executed, which is an input of the command and no register (R22); DESIGN CHOICE,
log 9, safe. -/
inductive Phase where
  | idle
  | conCheck (seed : U64)
  | conInit (seed : U64)
  | advCheck
  | advSquare
  | advWeyl
  | advSum
  | advRotate
  | advOut
  | drvSplit
  | drvLut
  | drvB2
  | drvInit
  | drvLoad
  | drvSample (half : Half) (at_ : SampleStage)
  | drvPack
deriving DecidableEq, Repr

/-- What the host does on the command port and the reset input (30_encoding.md R36, 70_reset_and_hazards.md R101).
DESIGN CHOICE, log 1 and log 6, safe. -/
inductive HostEvent where
  /-- Reset is asserted. -/
  | reset
  /-- The word is presented until it is accepted, and then carried out as one transaction. -/
  | command (w : CmdWord)
  /-- The word is presented until it is accepted; the engine then makes one stage a step, so that a reset can fall
  between any two of its stages. -/
  | start (w : CmdWord)
  /-- Nothing is presented for one step. -/
  | wait
deriving DecidableEq, Repr

/-- The status of a response (60_exceptions.md R79). -/
inductive Status where
  | ok
  | invalidSeed
  | notConstructed
  | illegalCmd
deriving DecidableEq, Repr

/-- A response (30_encoding.md R38). -/
structure Response where
  status : Status
  data : U64
deriving DecidableEq, Repr

/-- The machine: the registers of R10 to R18, and two fields of the model's own, what the host will still do (`inbox`,
log 1) and the responses delivered so far, newest first (`sent`, log 2). -/
structure State where
  /-- The architectural generator context G (R10, R11, R12). -/
  g : Context
  /-- `gv`, generator valid (R14). -/
  gv : Bool
  /-- The temporary context T (R15). -/
  t : Context
  /-- The sampler registers (R16). -/
  smp : Sampler
  /-- The orchestrator registers (R17). -/
  orch : Orchestrator
  /-- The sequencer (R18). -/
  ph : Phase
  /-- The model's own: the host's further actions, the next one first. -/
  inbox : List HostEvent
  /-- The model's own: the responses delivered, the newest first. -/
  sent : List Response
deriving DecidableEq, Repr

/-- Nothing stops the engine with a fault: every error is a response (60_exceptions.md R83, R86) and every word and
order of events has a defined outcome (70_reset_and_hazards.md R101). So this type has no constructor: no meaning and
no step can raise one. -/
inductive Fault where
deriving DecidableEq, Repr

/-- Why a step would be refused. -/
inductive Refusal where
  /-- An instruction without a meaning; raised by no arm of `exec` in this model (safe: it stops). -/
  | notModelled (mnemonic : String)
deriving DecidableEq, Repr

/-- The machine right after reset: `gv = 0`, `ph = IDLE` (R23, R91); the registers the spec leaves unspecified hold 0
(DESIGN CHOICE, log 3, unsafe); nothing presented, nothing delivered. -/
def State.reset : State where
  g := ⟨0, 0, 0⟩
  gv := false
  t := ⟨0, 0, 0⟩
  smp := ⟨0, 0, 0, 0, 0, 0⟩
  orch := ⟨0, 0, 0, 0, 0, 0, 0, 0, 0⟩
  ph := .idle
  inbox := []
  sent := []

/-- `s` with context G replaced. -/
def State.setG (s : State) (g : Context) : State := { s with g := g }

/-- `s` with `gv` replaced. -/
def State.setGv (s : State) (gv : Bool) : State := { s with gv := gv }

/-- `s` with context T replaced. -/
def State.setT (s : State) (t : Context) : State := { s with t := t }

/-- `s` with the sampler registers replaced. -/
def State.setSmp (s : State) (smp : Sampler) : State := { s with smp := smp }

/-- `s` with the orchestrator registers replaced. -/
def State.setOrch (s : State) (orch : Orchestrator) : State := { s with orch := orch }

/-- `s` with the sequencer moved. -/
def State.setPh (s : State) (ph : Phase) : State := { s with ph := ph }

/-- `s` with the host's further actions replaced. -/
def State.setInbox (s : State) (inbox : List HostEvent) : State := { s with inbox := inbox }

/-- `s` with the delivered responses replaced. -/
def State.setSent (s : State) (sent : List Response) : State := { s with sent := sent }

end Sys2Proof.Machine
end

