-- ==== Sys2Proof/Machine/Datapath.lean ====
section
/-! DEFINITION. The datapath units, each defined by its function only (40_datapath_units.md R47 to R55). -/

namespace Sys2Proof.Machine

/-- `SQR64` (R47): the low 64 bits of the square. -/
def sqr64 (v : U64) : U64 := v * v

/-- `ADD64` (R48): the sum modulo 2^64, the carry discarded. -/
def add64 (p q : U64) : U64 := p + q

/-- `ROT32` (R49): `{v[31:0], v[63:32]}`, the two halves swapped. -/
def rot32 (v : U64) : U64 := v.extractLsb' 0 32 ++ v.extractLsb' 32 32

/-- `LOW32` (R50): `v[31:0]`. -/
def low32 (v : U64) : U32 := v.extractLsb' 0 32

/-- `MUL64` (R51): the product modulo 2^64. -/
def mul64 (p q : U64) : U64 := p * q

/-- `a div b`, unsigned floor quotient (R52); `b` is 100_000_000 or 30. -/
def divide (a b : U64) : U64 := a / b

/-- `a mod b`, unsigned remainder (R52); `b` is 100_000_000 or 30. -/
def remainder (a b : U64) : U64 := a % b

/-- `NIBBLE(j, i) = j[i+3:i]` (R53). -/
def nibble (j : U32) (i : U5) : U4 := j.extractLsb' i.toNat 4

/-- `PACK(high, low) = (zext_64(high) << 32) | zext_64(low) | 1` (R54). -/
def pack (high low : U32) : U64 := (high.setWidth 64 <<< 32) ||| low.setWidth 64 ||| 1#64

end Sys2Proof.Machine
end

