-- ==== Sys2Proof/Machine/Flags.lean ====
section
/-! DEFINITION. The flag-like state (10_state.md R20): the engine has no carry, overflow, zero or sign flag; `gv` is a
field of State that CONSTRUCT sets (R14); the sampler's used-value bitmask `c` is read and written here (R16). -/

namespace Sys2Proof.Machine

/-- `c[k] = 1`: the nibble value `k` has been taken in this SAMPLE (R16, 43_sampler.md R74). -/
def isUsed (c : U16) (k : U4) : Bool := c.getLsbD k.toNat

/-- `c[k] <- 1` (43_sampler.md R72). -/
def markUsed (c : U16) (k : U4) : U16 := c ||| (1#16 <<< k.toNat)

/-- How many values are marked: `popcount(c)` (43_sampler.md R76). -/
def usedCount (c : U16) : Nat := ((List.range 16).filter (fun b => c.getLsbD b)).length

end Sys2Proof.Machine
end

