-- ==== Sys2Proof/Machine/Operands.lean ====
section
/-! DEFINITION. What a command's operand and a response are made of (30_encoding.md R38, R39). There is one operand
form, `arg` as presented; there is no register number, no immediate and no addressing mode. -/

namespace Sys2Proof.Machine

/-- `v[0] = 1`: the parity CONSTRUCT checks (41_generator.md R58). -/
def isOdd (v : U64) : Bool := v.getLsbD 0

/-- `zext_64` of an ADVANCE result: the value in `data[31:0]`, `data[63:32] = 0` (R39). -/
def zext64 (v : U32) : U64 := v.setWidth 64

/-- The 2-bit status code (R38, 60_exceptions.md R79). -/
def statusCode : Status → BitVec 2
  | .ok => 0b00#2
  | .invalidSeed => 0b01#2
  | .notConstructed => 0b10#2
  | .illegalCmd => 0b11#2

/-- The response word `{status, data}` (R38). -/
def responseWord (r : Response) : RspWord := statusCode r.status ++ r.data

/-- The response that a word on the response port is (R38): the four codes are all assigned. -/
def responseOfWord (w : RspWord) : Response where
  status :=
    if w.extractLsb' 64 2 = 0b00#2 then .ok
    else if w.extractLsb' 64 2 = 0b01#2 then .invalidSeed
    else if w.extractLsb' 64 2 = 0b10#2 then .notConstructed
    else .illegalCmd
  data := w.extractLsb' 0 64

end Sys2Proof.Machine
end

