-- ==== Sys2Proof/Machine/Ops.lean ====
section
/-! DEFINITION. The operations the commands share: acceptance, the response (an error response among them, which is
this engine's whole exception mechanism), the reset event, the LUT read, the generator step. -/

namespace Sys2Proof.Machine

/-- The engine accepts a command exactly when `ph = IDLE` (30_encoding.md R36 (a); `busy` of 10_state.md R19 is its
negation). -/
def State.ready (s : State) : Bool := s.ph == .idle

/-- A command word presented while the engine is busy "is not accepted and has no effect" (30_encoding.md R43 (a)). -/
def State.whenReady (s : State) (effect : State → State) : State :=
  if s.ready then effect s else s

/-- `respond(status, data)`: the one response to the command in progress; `ph` returns to IDLE (30_encoding.md R38,
R43 (b)). -/
def State.respond (s : State) (status : Status) (data : U64) : State :=
  (s.setSent (⟨status, data⟩ :: s.sent)).setPh .idle

/-- Taking an exception (60_exceptions.md R86): `{status, 0}` is delivered and `ph` is IDLE; nothing is saved, no
register changes. There is nothing to return from (R87). -/
def State.errorResponse (s : State) (status : Status) : State := s.respond status 0

/-- The reset event (70_reset_and_hazards.md R91, R92): the reset state, whatever stage had been reached. What the
host will still do and what has been delivered are no registers of the engine and stay (log 2); the registers the spec
leaves unspecified take their values of `State.reset` (DESIGN CHOICE, log 4, unsafe). -/
def State.resetEvent (s : State) : State :=
  (State.reset.setInbox s.inbox).setSent s.sent

/-- `LUT[e]` (20_memory.md R26, R27): the engine's only load. Addresses 30 and 31 do not exist and are never
generated (R25, R28), so the index type has 30 values. -/
def lut (e : Fin 30) : U64 := Config.table e

/-- `bucket mod 30` as an index of the LUT (42_seed_deriver.md R65). -/
def tableIndex (bucket : U64) : Fin 30 :=
  ⟨(remainder bucket Config.tableLen).toNat % 30, Nat.mod_lt _ (by decide)⟩

/-- `GenStep(C)` (40_datapath_units.md R56): the context after the step and the 32-bit result. -/
def genStep (C : Context) : Context × U32 :=
  let t1 := sqr64 C.x
  let t2 := add64 C.w C.s
  let t3 := add64 t1 t2
  let t4 := rot32 t3
  (⟨C.s, t4, t2⟩, low32 t4)

/-- Stage 1 of GenStep, in place as the source writes it: `output <- output^2` (R56; log 8). -/
def stepSquare (C : Context) : Context := { C with x := sqr64 C.x }

/-- Stage 2: `weyl <- weyl + seed` (R56). -/
def stepWeyl (C : Context) : Context := { C with w := add64 C.w C.s }

/-- Stage 3: `output <- output + weyl`, with the NEW weyl (R56, 70_reset_and_hazards.md R94). -/
def stepSum (C : Context) : Context := { C with x := add64 C.x C.w }

/-- Stage 4: `output <- ROT32(output)` (R56). -/
def stepRotate (C : Context) : Context := { C with x := rot32 C.x }

/-- Stage 5: the low 32 bits of the resulting output (R56). -/
def stepOut (C : Context) : U32 := low32 C.x

/-- The engine idle with the word `w` next on its command port: what `withFetchWord` sets (log 15). -/
def State.presentWord (s : State) (w : CmdWord) : State :=
  (s.setInbox (.command w :: s.inbox)).setPh .idle

end Sys2Proof.Machine
end

