-- ==== Sys2Proof/Machine/Generator.lean ====
section
/-! DEFINITION. The generator commands CONSTRUCT and ADVANCE on context G (41_generator.md R58 to R62). -/

namespace Sys2Proof.Machine

/-- The successful half of CONSTRUCT (R58): `G.s <- seed`, `G.x <- 0`, `G.w <- 0`, `gv <- 1`, `respond(OK, 0)`. -/
def initGenerator (seed : U64) (s : State) : State :=
  ((s.setG ⟨seed, 0, 0⟩).setGv true).respond .ok 0

/-- CONSTRUCT (R58). -/
def execConstruct (seed : U64) (s : State) : Host.Outcome State Fault Refusal :=
  .next (s.whenReady fun s =>
    if isOdd seed then initGenerator seed s else s.errorResponse .invalidSeed)

/-- ADVANCE (R59). -/
def execAdvance (s : State) : Host.Outcome State Fault Refusal :=
  .next (s.whenReady fun s =>
    if s.gv then (s.setG (genStep s.g).1).respond .ok (zext64 (genStep s.g).2)
    else s.errorResponse .notConstructed)

end Sys2Proof.Machine
end

