-- ==== Sys2Proof/Machine/Reserved.lean ====
section
/-! DEFINITION. The reserved command (30_encoding.md R40, 60_exceptions.md R82). -/

namespace Sys2Proof.Machine

/-- ILLEGAL (R82): accepted, no register changes, answered `respond(ILLEGAL_CMD, 0)`. -/
def execIllegal (s : State) : Host.Outcome State Fault Refusal :=
  .next (s.whenReady fun s => s.errorResponse .illegalCmd)

end Sys2Proof.Machine
end

