-- ==== Sys2Proof/Machine/Sampler.lean ====
section
/-! DEFINITION. The digit-uniqueness sampler SAMPLE (43_sampler.md R72 to R78). -/

namespace Sys2Proof.Machine

/-- The start of a SAMPLE (R72): `a <- 0`, `c <- 0`, `m <- 0`. -/
def cleared (r : Sampler) : Sampler := { r with a := 0, c := 0, m := 0 }

/-- The body of the window loop for the window the register `i` holds (R72, R74): the nibble is taken if its value is
new in this SAMPLE, and skipped otherwise. -/
def takeWindow (r : Sampler) : Sampler :=
  let k := nibble r.j r.i
  if isUsed r.c k then { r with k := k }
  else { r with k := k, c := markUsed r.c k, a := r.a ||| (k.setWidth 32 <<< r.m.toNat), m := r.m + 4 }

/-- The window positions, least-significant first (R73). -/
def windowPositions : List U5 := [0, 4, 8, 12, 16, 20, 24, 28]

/-- The window loop from the positions still to come, with the early stop when `m` has reached 32 (R72, R75). (`m` is
below 32 before a window, so it is 32 after one only if that window was taken.) -/
def scanWindows : List U5 → Sampler → Sampler
  | [], r => r
  | i :: rest, r =>
    let r' := takeWindow { r with i := i }
    if r'.m = 32 then r' else scanWindows rest r'

/-- One turn of the outer loop of SAMPLE: one draw from the context, scanned (R72). -/
def drawAndScan (C : Context) (r : Sampler) : Context × Sampler :=
  ((genStep C).1, scanWindows windowPositions { r with j := (genStep C).2 })

/-- The outer loop `while m < 32` of SAMPLE, at most `n` turns of it (R72). It is over exactly when `m` is not below 32
afterwards: a SAMPLE has no bound of its own (R77). -/
def sampleDraws : Nat → Context → Sampler → Context × Sampler
  | 0, C, r => (C, r)
  | n + 1, C, r =>
    if r.m < 32 then sampleDraws n (drawAndScan C r).1 (drawAndScan C r).2 else (C, r)

end Sys2Proof.Machine
end

