-- ==== Sys2Proof/Machine/SeedDeriver.lean ====
section
/-! DEFINITION. The seed derivation orchestrator, DERIVE_SEED (42_seed_deriver.md R63 to R71). -/

namespace Sys2Proof.Machine

/-- Stage DRV_SPLIT (R64). -/
def splitIndex (o : Orchestrator) : Orchestrator :=
  { o with bucket := divide o.index Config.bucketWidth, offset := remainder o.index Config.bucketWidth }

/-- Stage DRV_LUT (R65). -/
def selectEntry (o : Orchestrator) : Orchestrator :=
  { o with ti := BitVec.ofNat 5 (tableIndex o.bucket).val, tseed := lut (tableIndex o.bucket) }

/-- Stage DRV_B2 (R66). -/
def countCycles (o : Orchestrator) : Orchestrator :=
  { o with bucket2 := divide o.bucket Config.tableLen }

/-- Stage DRV_INIT (R67). The factor 100_000_000 is written first: "multiplying in any order" gives the same result
(40_datapath_units.md R51), and a product whose SECOND factor is a large literal is one that Lean may try to unfold
digit by digit. -/
def startValue (o : Orchestrator) : Orchestrator :=
  { o with
    initial := add64 (mul64 o.offset o.tseed) (mul64 Config.bucketWidth (mul64 o.bucket2 o.tseed)) }

/-- Stage DRV_LOAD (R68): `T.s <- tseed`, `T.w <- initial`, `T.x <- initial`, with no parity check. -/
def loadedContext (o : Orchestrator) : Context := ⟨o.tseed, o.initial, o.initial⟩

/-- A SAMPLE's result into `high` or `low` (R69). -/
def recordHalf (h : Half) (a : U32) (o : Orchestrator) : Orchestrator :=
  match h with
  | .high => { o with high := a }
  | .low => { o with low := a }

/-- The stage a finished SAMPLE continues at: DRV_LO after the first, DRV_PACK after the second (43_sampler.md R102). -/
def afterHalf : Half → Phase
  | .high => .drvSample .low .clear
  | .low => .drvPack

/-- The end of a SAMPLE: its result is `a` (R69, 43_sampler.md R72). -/
def finishHalf (h : Half) (s : State) : State :=
  (s.setOrch (recordHalf h s.smp.a s.orch)).setPh (afterHalf h)

/-- Stages DRV_SPLIT to DRV_LOAD for the index `index` (R64 to R68). -/
def prepareSampling (index : U64) (s : State) : State :=
  let o := startValue (countCycles (selectEntry (splitIndex { s.orch with index := index })))
  (s.setOrch o).setT (loadedContext o)

/-- Stage DRV_HI or DRV_LO (R69), at most `Config.drawsPerStep` draws of it: a SAMPLE that has not filled by then
leaves the engine busy before its next draw (log 7). -/
def runHalf (h : Half) (s : State) : State :=
  let p := sampleDraws Config.drawsPerStep s.t (cleared s.smp)
  let s' := (s.setT p.1).setSmp p.2
  if p.2.m < 32 then s'.setPh (.drvSample h .drawSquare) else finishHalf h s'

/-- Stage DRV_PACK (R70). -/
def respondSeed (s : State) : State := s.respond .ok (pack s.orch.high s.orch.low)

/-- The stages of DERIVE_SEED after the first SAMPLE, if it has finished (R69, R70). -/
def afterHigh (s : State) : State :=
  if s.ph = .drvSample .low .clear then
    let s' := runHalf .low s
    if s'.ph = .drvPack then respondSeed s' else s'
  else s

/-- What a DERIVE_SEED for `index` makes of a ready engine (R63). -/
def derive (index : U64) (s : State) : State := afterHigh (runHalf .high (prepareSampling index s))

/-- DERIVE_SEED (R63). -/
def execDeriveSeed (index : U64) (s : State) : Host.Outcome State Fault Refusal :=
  .next (s.whenReady (derive index))

end Sys2Proof.Machine
end

