-- ==== Sys2Proof/Machine/Dispatch.lean ====
section
/-! DEFINITION. The dispatch: one arm per command (30_encoding.md R46, 43_sampler.md R102 (a)). -/

namespace Sys2Proof.Machine

def exec (i : Instr) (s : State) : Host.Outcome State Fault Refusal :=
  match i with
  | .illegal => Sys2Proof.Machine.execIllegal s
  | .construct seed => Sys2Proof.Machine.execConstruct seed s
  | .advance => Sys2Proof.Machine.execAdvance s
  | .deriveSeed index => Sys2Proof.Machine.execDeriveSeed index s

end Sys2Proof.Machine
end

