-- ==== Sys2Proof/Machine/Sequencer.lean ====
section
/-! DEFINITION. The sequencer (10_state.md R18, 43_sampler.md R102): acceptance of a command, and one stage of it. -/

namespace Sys2Proof.Machine

/-- Acceptance of a command without carrying it out: the sequencer at the command's first stage (R18). The reserved
command has no stage and is answered at once (60_exceptions.md R82; log 10). -/
def accept (i : Instr) (s : State) : State :=
  match i with
  | .illegal => s.errorResponse .illegalCmd
  | .construct seed => s.setPh (.conCheck seed)
  | .advance => s.setPh .advCheck
  | .deriveSeed index => (s.setOrch { s.orch with index := index }).setPh .drvSplit

/-- Stage SMP_SCAN at the window the register `i` holds (R18, 43_sampler.md R72): the next window, the next draw, or
the end of the SAMPLE. -/
def scanStage (h : Half) (s : State) : State :=
  let r := takeWindow s.smp
  let s' := s.setSmp r
  if r.m = 32 then finishHalf h s'
  else if r.i = 28 then
    if r.m < 32 then s'.setPh (.drvSample h .drawSquare) else finishHalf h s'
  else s'.setSmp { r with i := r.i + 4 }

/-- One stage of SAMPLE in stage DRV_HI or DRV_LO (R18, R72). -/
def sampleStage (h : Half) (st : SampleStage) (s : State) : State :=
  match st with
  | .clear => (s.setSmp (cleared s.smp)).setPh (.drvSample h .drawSquare)
  | .drawSquare => (s.setT (stepSquare s.t)).setPh (.drvSample h .drawWeyl)
  | .drawWeyl => (s.setT (stepWeyl s.t)).setPh (.drvSample h .drawSum)
  | .drawSum => (s.setT (stepSum s.t)).setPh (.drvSample h .drawRotate)
  | .drawRotate => (s.setT (stepRotate s.t)).setPh (.drvSample h .drawOut)
  | .drawOut => (s.setSmp { s.smp with j := stepOut s.t, i := 0 }).setPh (.drvSample h .scan)
  | .scan => scanStage h s

/-- One stage of the command in progress (R18); an idle engine does nothing (log 13). -/
def stage (s : State) : State :=
  match s.ph with
  | .idle => s
  | .conCheck seed => if isOdd seed then s.setPh (.conInit seed) else s.errorResponse .invalidSeed
  | .conInit seed => initGenerator seed s
  | .advCheck => if s.gv then s.setPh .advSquare else s.errorResponse .notConstructed
  | .advSquare => (s.setG (stepSquare s.g)).setPh .advWeyl
  | .advWeyl => (s.setG (stepWeyl s.g)).setPh .advSum
  | .advSum => (s.setG (stepSum s.g)).setPh .advRotate
  | .advRotate => (s.setG (stepRotate s.g)).setPh .advOut
  | .advOut => s.respond .ok (zext64 (stepOut s.g))
  | .drvSplit => (s.setOrch (splitIndex s.orch)).setPh .drvLut
  | .drvLut => (s.setOrch (selectEntry s.orch)).setPh .drvB2
  | .drvB2 => (s.setOrch (countCycles s.orch)).setPh .drvInit
  | .drvInit => (s.setOrch (startValue s.orch)).setPh .drvLoad
  | .drvLoad => (s.setT (loadedContext s.orch)).setPh (.drvSample .high .clear)
  | .drvSample h st => sampleStage h st s
  | .drvPack => respondSeed s

end Sys2Proof.Machine
end

