-- ==== Sys2Proof/Machine/Step.lean ====
section
/-! DEFINITION. One step of the machine: the host's next action, or one stage of the command in progress. -/

namespace Sys2Proof.Machine

/-- One step. Reset overrides everything (60_exceptions.md R85 (a)). An idle engine accepts the word presented and
either carries the command out (`command`) or stands at its first stage (`start`). A busy engine accepts nothing: the
word stays presented and the engine makes one stage (30_encoding.md R43 (a)). -/
def step (s : State) : Host.Outcome State Fault Refusal :=
  match s.inbox with
  | [] => .next (stage s)
  | .wait :: rest => .next (stage (s.setInbox rest))
  | .reset :: rest => .next (s.setInbox rest).resetEvent
  | .command w :: rest => if s.ready then exec (decode w) (s.setInbox rest) else .next (stage s)
  | .start w :: rest => if s.ready then .next (accept (decode w) (s.setInbox rest)) else .next (stage s)

/-- `s` with the table word `w` of `nbits` bits presented to an idle engine, so that the very next step accepts and
carries out its command (log 15). The word is taken to 66 bits, the width of every command word. -/
def State.withFetchWord (s : State) (nbits w : Nat) : State :=
  s.presentWord (BitVec.ofNat 66 (w % 2 ^ nbits))

end Sys2Proof.Machine
end

