-- ==== Sys2Proof/Safety.lean ====
section
/-! DEFINITION. The terms the claims are stated in: the draw stream of a context and what a SAMPLE of it should be,
said without the sampler's loop; the seed derivation said over natural numbers; the invariant of the engine; and which
registers are live at each stage. -/

namespace Sys2Proof.Machine

/-! ### The stream of a context -/

/-- The context after `n` generator steps. -/
def afterSteps : Nat → Context → Context
  | 0, C => C
  | n + 1, C => afterSteps n (genStep C).1

/-- What step number `n` (counted from 0) returns: `out_{n+1}` of 41_generator.md R60. -/
def drawAt (C : Context) (n : Nat) : U32 := (genStep (afterSteps n C)).2

/-- The eight windows of a draw, least-significant first (43_sampler.md R73). -/
def windowsOf (j : U32) : List U4 := windowPositions.map (nibble j)

/-- The nibbles of the first `n` draws, in scanning order. -/
def nibbleStream (C : Context) (n : Nat) : List U4 := (List.range n).flatMap fun d => windowsOf (drawAt C d)

/-- The distinct values of a list in the order of their first occurrence, after those of `seen`. -/
def firstSeenAfter (seen : List U4) : List U4 → List U4
  | [] => seen
  | k :: ks => if k ∈ seen then firstSeenAfter seen ks else firstSeenAfter (seen ++ [k]) ks

/-- The distinct values of a list in the order of their first occurrence. -/
def firstSeen (ks : List U4) : List U4 := firstSeenAfter [] ks

/-- Nibbles at fixed positions: the first in bits 3 to 0, the next in bits 7 to 4, and so on (43_sampler.md R73). -/
def placeNibbles : List U4 → U32
  | [] => 0
  | k :: ks => k.setWidth 32 ||| (placeNibbles ks <<< 4)

/-- The first `n` draws show eight distinct nibble values. -/
def fillsWithin (C : Context) (n : Nat) : Prop := 8 ≤ (firstSeen (nibbleStream C n)).length

/-- A SAMPLE of `C` makes exactly `n` draws: the first `n` show eight distinct values, no fewer do. -/
def drawsToFill (C : Context) (n : Nat) : Prop := fillsWithin C n ∧ ∀ e < n, ¬ fillsWithin C e

/-- The result of a SAMPLE of `C` that makes `n` draws: the first eight distinct nibbles, in the order encountered. -/
def sampleValue (C : Context) (n : Nat) : U32 := placeNibbles ((firstSeen (nibbleStream C n)).take 8)

/-! ### The seed derivation over natural numbers (42_seed_deriver.md R64 to R68) -/

/-- The LUT entry of an index: `(index / 100_000_000) mod 30`. -/
def entryOf (index : U64) : Fin 30 := ⟨index.toNat / 100000000 % 30, Nat.mod_lt _ (by decide)⟩

/-- The position of an index within the indices that use its entry: `p = offset + bucket2 * 100_000_000`. -/
def positionOf (index : U64) : Nat :=
  index.toNat % 100000000 + 100000000 * (index.toNat / 100000000 / 30)

/-- The context T that the index starts the sampling with: `s = TABLE[ti]`, `x = w = s * p mod 2^64`. -/
def startContext (index : U64) : Context :=
  ⟨Config.table (entryOf index), Config.table (entryOf index) * BitVec.ofNat 64 (positionOf index),
    Config.table (entryOf index) * BitVec.ofNat 64 (positionOf index)⟩

/-! ### Runs -/

/-- `n` steps of the machine. -/
def runFor (n : Nat) (s : State) : Host.Outcome State Fault Refusal := Host.Core.run Sys2Proof.core n s

/-- The commands of a list carried out one after another. -/
def execAll : List Instr → State → Host.Outcome State Fault Refusal
  | [], s => .next s
  | i :: is, s =>
    match exec i s with
    | .next s' => execAll is s'
    | .fault r => .fault r
    | .refused r => .refused r

/-- The host's next action is a word that the engine accepts in this step (30_encoding.md R36 (a)). -/
def accepting (s : State) : Bool :=
  s.ready && match s.inbox with
    | .command _ :: _ | .start _ :: _ => true
    | _ => false

/-- How many accepted commands are not yet answered: 1 while the engine is busy (30_encoding.md R43). -/
def unanswered (s : State) : Nat := if s.ready then 0 else 1

/-- Both SAMPLE runs of a DERIVE_SEED for `index` fill, after `n1` and `n2` draws (42_seed_deriver.md R69). -/
def bothFill (index : U64) (n1 n2 : Nat) : Prop :=
  drawsToFill (startContext index) n1 ∧ drawsToFill (afterSteps n1 (startContext index)) n2

/-- The seed derived from `index` when its SAMPLE runs make `n1` and `n2` draws (R69, R70). -/
def derivedSeed (index : U64) (n1 n2 : Nat) : U64 :=
  pack (sampleValue (startContext index) n1) (sampleValue (afterSteps n1 (startContext index)) n2)

/-- A command that neither starts a new lifetime nor is left unfinished by one step: what may stand between the ADVANCE
commands of 41_generator.md R60. -/
def keepsGenerator : Instr → Prop
  | .illegal | .advance => True
  | .construct seed => isOdd seed = false
  | .deriveSeed index =>
    ∃ n1 n2, bothFill index n1 n2 ∧ n1 ≤ Config.drawsPerStep ∧ n2 ≤ Config.drawsPerStep

/-! ### The invariant -/

/-- The nibble at position `p` of a 32-bit value. -/
def nibbleAt (a : U32) (p : Nat) : U4 := a.extractLsb' (4 * p) 4

/-- The `m / 4` nibbles a SAMPLE has taken so far: `a[3:0]`, ..., `a[m-1:m-4]`. -/
def takenNibbles (r : Sampler) : List U4 := (List.range (r.m.toNat / 4)).map (nibbleAt r.a)

/-- A 32-bit value of eight pairwise distinct nibbles. -/
def distinctNibbles (a : U32) : Prop := ((List.range 8).map (nibbleAt a)).Nodup

/-- The invariant of the sampler registers "at every point of a SAMPLE" (43_sampler.md R76). -/
structure Sampler.Sound (r : Sampler) : Prop where
  /-- `m` is in {0, 4, ..., 32}. -/
  count : r.m.toNat % 4 = 0 ∧ r.m.toNat ≤ 32
  /-- `popcount(c) = m / 4`. -/
  popcount : usedCount r.c = r.m.toNat / 4
  /-- `a[31:m] = 0`. -/
  above : r.a >>> r.m.toNat = 0
  /-- The nibbles taken are pairwise distinct. -/
  distinct : (takenNibbles r).Nodup
  /-- They are exactly the values `k` with `c[k] = 1`. -/
  marked : ∀ k : U4, isUsed r.c k = true ↔ k ∈ takenNibbles r

/-- `index = bucket * 100_000_000 + offset` with `offset <= 99_999_999` (42_seed_deriver.md R64). -/
def splitSound (o : Orchestrator) : Prop :=
  o.index.toNat = 100000000 * o.bucket.toNat + o.offset.toNat ∧ o.offset.toNat < 100000000

/-- `ti = bucket mod 30` and `tseed = LUT[ti]` (R65). -/
def entrySound (o : Orchestrator) : Prop :=
  o.ti.toNat = o.bucket.toNat % 30 ∧ ∃ e : Fin 30, e.val = o.ti.toNat ∧ o.tseed = Config.table e

/-- `bucket = 30 * bucket2 + ti` (R66). -/
def cyclesSound (o : Orchestrator) : Prop :=
  o.bucket.toNat = 30 * o.bucket2.toNat + o.ti.toNat

/-- `initial = MUL64(tseed, offset + bucket2 * 100_000_000)` (R67). -/
def initialSound (o : Orchestrator) : Prop :=
  o.initial = o.tseed * BitVec.ofNat 64 (o.offset.toNat + 100000000 * o.bucket2.toNat)

/-- What holds of the sampler registers at a stage of SAMPLE: before a window or a draw, `m` is below 32, so every
shift `k << m` has `m <= 28` (43_sampler.md R75). -/
def samplerSoundAt : SampleStage → Sampler → Prop
  | .clear, _ => True
  | .drawSquare, r | .drawWeyl, r | .drawSum, r | .drawRotate, r | .drawOut, r => r.Sound ∧ r.m.toNat ≤ 28
  | .scan, r => r.Sound ∧ r.m.toNat ≤ 28 ∧ r.i.toNat % 4 = 0 ∧ r.i.toNat ≤ 28

/-- What holds at each stage of the sequencer. -/
def stageSound (s : State) : Prop :=
  match s.ph with
  | .idle | .conCheck _ | .advCheck | .drvSplit => True
  | .conInit seed => isOdd seed = true
  | .advSquare | .advWeyl | .advSum | .advRotate | .advOut => s.gv = true
  | .drvLut => splitSound s.orch
  | .drvB2 => splitSound s.orch ∧ entrySound s.orch
  | .drvInit => splitSound s.orch ∧ entrySound s.orch ∧ cyclesSound s.orch
  | .drvLoad => splitSound s.orch ∧ entrySound s.orch ∧ cyclesSound s.orch ∧ initialSound s.orch
  | .drvSample h st =>
    isOdd s.t.s = true ∧ samplerSoundAt st s.smp ∧ (h = .low → distinctNibbles s.orch.high)
  | .drvPack => distinctNibbles s.orch.high ∧ distinctNibbles s.orch.low

/-- The invariant of the engine: a valid generator has an odd seed (10_state.md R13), and the stage in progress finds
its registers as the rules of the earlier stages leave them. -/
structure Inv (s : State) : Prop where
  /-- `gv = 1` implies `G.s[0] = 1` (R13). -/
  oddSeed : s.gv = true → isOdd s.g.s = true
  atStage : stageSound s

/-! ### Live registers (10_state.md R24) -/

/-- G is read before it is written only when it is valid, or by the stages of an ADVANCE under way. -/
def liveG (s : State) : Bool :=
  s.gv || match s.ph with
    | .advSquare | .advWeyl | .advSum | .advRotate | .advOut => true
    | _ => false

/-- The sampler registers that a later stage reads, the others set to 0. -/
def liveSampler (ph : Phase) (r : Sampler) : Sampler :=
  match ph with
  | .drvSample _ .clear => ⟨0, 0, 0, 0, 0, 0⟩
  | .drvSample _ .scan => { r with k := 0 }
  | .drvSample _ _ => { r with j := 0, i := 0, k := 0 }
  | _ => ⟨0, 0, 0, 0, 0, 0⟩

/-- The orchestrator registers that a later stage reads, the others set to 0. -/
def liveOrchestrator (ph : Phase) (o : Orchestrator) : Orchestrator :=
  let none : Orchestrator := ⟨0, 0, 0, 0, 0, 0, 0, 0, 0⟩
  match ph with
  | .drvSplit => { none with index := o.index }
  | .drvLut => { none with bucket := o.bucket, offset := o.offset }
  | .drvB2 => { none with bucket := o.bucket, offset := o.offset, tseed := o.tseed }
  | .drvInit => { none with offset := o.offset, tseed := o.tseed, bucket2 := o.bucket2 }
  | .drvLoad => { none with tseed := o.tseed, initial := o.initial }
  | .drvSample .low _ => { none with high := o.high }
  | .drvPack => { none with high := o.high, low := o.low }
  | _ => none

/-- T is read only while a SAMPLE is under way. -/
def liveT (ph : Phase) (t : Context) : Context :=
  match ph with
  | .drvSample _ _ => t
  | _ => ⟨0, 0, 0⟩

/-- The state with every register set to 0 that is written before it is next read: two states with the same live part
differ only in values the spec leaves unspecified or private (R23, R24, D22). -/
def livePart (s : State) : State :=
  { s with
    g := if liveG s then s.g else ⟨0, 0, 0⟩
    t := liveT s.ph s.t
    smp := liveSampler s.ph s.smp
    orch := liveOrchestrator s.ph s.orch }

end Sys2Proof.Machine
end

