-- ==== Sys2Proof/Certificates/Slice0/Obligations.lean ====
section
/-! DEFINITION. The statements for the provers, one definition each. A docstring cites the rules of spec/ that the
statement formalises; where a clause rests on a choice of the model's, it names the log entry. -/

open Sys2Proof Sys2Proof.Machine

/-! ### Encoding -/

/-- Words written out from 30_encoding.md R37 (95_test_vectors.md V3.1), one and more of every row, decode to the
command they stand for. -/
def Obligations.WrittenOutWordsDecode : Prop :=
  decode 0x1b5ad4eceda1ce2a9#66 = .construct 0xb5ad4eceda1ce2a9#64 ∧
  decode 0x10000000000000000#66 = .construct 0#64 ∧
  decode 0x20000000000000000#66 = .advance ∧
  decode 0x2ffffffffffffffff#66 = .advance ∧
  decode 0x300000000b2d05e00#66 = .deriveSeed 3000000000#64 ∧
  decode 0x3ffffffffffffffff#66 = .deriveSeed 0xffffffffffffffff#64 ∧
  decode 0x00000000000000000#66 = .illegal ∧
  decode 0x00000000000000005#66 = .illegal

/-- R37: a word selects a row when `c & mask = match`; the rows are those of the opcode map, `arg` is `cmd[63:0]`, and
the four rows partition all words. -/
def Obligations.DecodeByMatchAndMask : Prop :=
  ∀ c : CmdWord,
    (c &&& 0x30000000000000000#66 = 0x00000000000000000#66 ↔ decode c = .illegal) ∧
    (c &&& 0x30000000000000000#66 = 0x10000000000000000#66 ↔ decode c = .construct (c.setWidth 64)) ∧
    (c &&& 0x30000000000000000#66 = 0x20000000000000000#66 ↔ decode c = .advance) ∧
    (c &&& 0x30000000000000000#66 = 0x30000000000000000#66 ↔ decode c = .deriveSeed (c.setWidth 64)) ∧
    (decode c = .illegal ∨ decode c = .construct (c.setWidth 64) ∨ decode c = .advance ∨
      decode c = .deriveSeed (c.setWidth 64))

/-- R46: `decode` by the value of `op`, total, injective apart from the ignored `arg`; `encode` gives the words the
rule writes and is the inverse of `decode` on canonical spellings (those of the reserved code apart, see
ReservedSpellingRoundTrip). -/
def Obligations.DecodeEncodeRoundTrip : Prop :=
  (∀ c : CmdWord,
    (c.toNat / 2 ^ 64 = 0 → decode c = .illegal) ∧
    (c.toNat / 2 ^ 64 = 1 → decode c = .construct (BitVec.ofNat 64 c.toNat)) ∧
    (c.toNat / 2 ^ 64 = 2 → decode c = .advance) ∧
    (c.toNat / 2 ^ 64 = 3 → decode c = .deriveSeed (BitVec.ofNat 64 c.toNat)) ∧
    c.toNat / 2 ^ 64 ≤ 3) ∧
  (∀ c d : CmdWord, decode c = decode d →
    c = d ∨ (c.toNat / 2 ^ 64 = d.toNat / 2 ^ 64 ∧ (c.toNat / 2 ^ 64 = 0 ∨ c.toNat / 2 ^ 64 = 2))) ∧
  (encode .advance).toNat = 0x20000000000000000 ∧
  (∀ v : U64, (encode (.construct v)).toNat = 0x10000000000000000 + v.toNat) ∧
  (∀ v : U64, (encode (.deriveSeed v)).toNat = 0x30000000000000000 + v.toNat) ∧
  (∀ i : Instr, i.wellFormed = true → i ≠ .illegal → isCanonical (encode i) = true ∧ decode (encode i) = i) ∧
  (∀ c : CmdWord, isCanonical c = true → c.toNat / 2 ^ 64 ≠ 0 → encode (decode c) = c)

/-- The canonical spelling of the reserved code is the all-zero word: the model's choice, log 14 (R46 names no
canonical word for it). -/
def Obligations.ReservedSpellingRoundTrip : Prop :=
  encode .illegal = 0#66 ∧ decode (encode .illegal) = .illegal ∧
  ∀ c : CmdWord, isCanonical c = true → decode c = .illegal → encode (decode c) = c

/-- The response format of R38 loses nothing and wastes nothing: every response is a word, every word is a response,
and the word is `{status, data}` with the codes 0 to 3 of R79. -/
def Obligations.ResponseWordsRoundTrip : Prop :=
  (∀ r : Response, responseOfWord (responseWord r) = r) ∧
  (∀ w : RspWord, responseWord (responseOfWord w) = w) ∧
  ∀ d : U64,
    (responseWord ⟨.ok, d⟩).toNat = d.toNat ∧
    (responseWord ⟨.invalidSeed, d⟩).toNat = 2 ^ 64 + d.toNat ∧
    (responseWord ⟨.notConstructed, d⟩).toNat = 2 * 2 ^ 64 + d.toNat ∧
    (responseWord ⟨.illegalCmd, d⟩).toNat = 3 * 2 ^ 64 + d.toNat

/-- The decoder as the opcode table numbers its words: a number of at most 66 bits is the word it denotes, and a wider
one is refused by name (the refusal is the model's choice, log 16). -/
def Obligations.TableWordsDecode : Prop :=
  ∀ nbits w : Nat,
    (w < 2 ^ nbits → w < 2 ^ 66 → decodeTableWord nbits w = some (decode (BitVec.ofNat 66 w))) ∧
    (w < 2 ^ nbits → 2 ^ 66 ≤ w →
      decodeNumber w = .error .widerThanACommandWord ∧ decodeTableWord nbits w = none)

/-! ### Datapath units -/

/-- R47, the squarer, with its corner cases. -/
def Obligations.SquarerTruncatesTheSquare : Prop :=
  (∀ v : U64,
    (sqr64 v).toNat = v.toNat ^ 2 % 2 ^ 64 ∧
    (v.toNat % 2 ^ 32 = 0 → sqr64 v = 0) ∧
    (v.toNat ^ 2 < 2 ^ 64 ↔ v.toNat ≤ 0xFFFFFFFF) ∧
    (sqr64 v).toNat % 2 = v.toNat % 2) ∧
  sqr64 0 = 0 ∧ sqr64 1 = 1 ∧ sqr64 0xFFFFFFFFFFFFFFFF = 1 ∧ sqr64 0x0000000100000000 = 0 ∧
  sqr64 0x00000000FFFFFFFF = 0xFFFFFFFE00000001 ∧ sqr64 0xda1ce2a9b5ad4ece = 0x73f44abee6ae2dc4

/-- R48, the modular adder and its three uses. -/
def Obligations.AdderDiscardsTheCarry : Prop :=
  (∀ p q : U64, (add64 p q).toNat = (p.toNat + q.toNat) % 2 ^ 64 ∧ add64 p 0 = p) ∧
  (∀ C : Context, (genStep C).1.w = add64 C.w C.s ∧
    (genStep C).1.x = rot32 (add64 (sqr64 C.x) (genStep C).1.w)) ∧
  (∀ o : Orchestrator, (startValue o).initial =
    add64 (mul64 o.offset o.tseed) (mul64 100000000 (mul64 o.bucket2 o.tseed))) ∧
  add64 0xFFFFFFFFFFFFFFFF 1 = 0 ∧ add64 0x8000000000000000 0x8000000000000000 = 0 ∧
  add64 0xb5ad4eceda1ce2a9 0xb5ad4eceda1ce2a9 = 0x6b5a9d9db439c552

/-- R49, the rotator: the halves swapped, equal to the source's shift formula and to a rotation by 32 either way. -/
def Obligations.RotatorSwapsTheHalves : Prop :=
  (∀ v : U64,
    (rot32 v).toNat = 2 ^ 32 * (v.toNat % 2 ^ 32) + v.toNat / 2 ^ 32 ∧
    rot32 v = (v >>> 32) ||| (v <<< 32) ∧ (v >>> 32) &&& (v <<< 32) = 0 ∧
    rot32 v = v.rotateLeft 32 ∧ rot32 v = v.rotateRight 32 ∧
    rot32 (rot32 v) = v) ∧
  rot32 0 = 0 ∧ rot32 0xFFFFFFFFFFFFFFFF = 0xFFFFFFFFFFFFFFFF ∧ rot32 1 = 0x0000000100000000 ∧
  rot32 0x8000000000000000 = 0x0000000080000000 ∧ rot32 0x0123456789abcdef = 0x89abcdef01234567

/-- R50, the output truncation: a step returns the high half of its stage 3 sum. -/
def Obligations.OutputIsTheHighHalfOfTheSum : Prop :=
  (∀ v : U64, (low32 v).toNat = v.toNat % 2 ^ 32 ∧ (low32 (rot32 v)).toNat = v.toNat / 2 ^ 32) ∧
  (∀ C : Context, (genStep C).2.toNat = (add64 (sqr64 C.x) (add64 C.w C.s)).toNat / 2 ^ 32) ∧
  low32 0xda1ce2a9b5ad4ece = 0xb5ad4ece

/-- R51, the multiplier: reducing after each multiplication or once at the end, in any order, is the same. -/
def Obligations.MultiplierTruncatesTheProduct : Prop :=
  (∀ p q : U64, (mul64 p q).toNat = p.toNat * q.toNat % 2 ^ 64 ∧ mul64 p q = mul64 q p ∧ mul64 p 0 = 0 ∧ mul64 p 1 = p) ∧
  (∀ p q r : U64, mul64 (mul64 p q) r = mul64 p (mul64 q r) ∧
    (mul64 (mul64 p q) r).toNat = p.toNat * q.toNat * r.toNat % 2 ^ 64 ∧
    add64 (mul64 p r) (mul64 q r) = mul64 (add64 p q) r) ∧
  (∀ v : U64, sqr64 v = mul64 v v) ∧
  mul64 0xFFFFFFFFFFFFFFFF 0xFFFFFFFFFFFFFFFF = 1 ∧ mul64 2 0x8b5ad4ce914ecdf7 = 0x16b5a99d229d9bee

/-- R52, the constant dividers: exact floor quotient and remainder, with the rule's corner cases. -/
def Obligations.DividersAreExact : Prop :=
  (∀ a b : U64, (b = 100000000 ∨ b = 30) →
    a.toNat = b.toNat * (divide a b).toNat + (remainder a b).toNat ∧ (remainder a b).toNat < b.toNat ∧
    ∀ q : Nat, b.toNat * q ≤ a.toNat → q ≤ (divide a b).toNat) ∧
  (∀ b : U64, divide 0 b = 0 ∧ remainder 0 b = 0) ∧
  divide 99999999 100000000 = 0 ∧ divide 100000000 100000000 = 1 ∧ remainder 100000000 100000000 = 0 ∧
  divide 0xFFFFFFFFFFFFFFFF 100000000 = 184467440737 ∧ remainder 0xFFFFFFFFFFFFFFFF 100000000 = 9551615 ∧
  remainder 184467440737 30 = 7 ∧ divide 184467440737 30 = 6148914691

/-- R53, the window extractor, at the eight window positions. -/
def Obligations.NibbleIsAWindow : Prop :=
  (∀ (j : U32) (i : U5), i ∈ windowPositions →
    (nibble j i).setWidth 32 = (j >>> i.toNat) &&& 0xF ∧ (nibble j i).toNat = j.toNat / 2 ^ i.toNat % 16) ∧
  nibble 0xce31fe73 0 = 0x3 ∧ nibble 0xce31fe73 28 = 0xc

/-- R54, the result packer: `{high, low[31:1], 1}`, with its corner cases. -/
def Obligations.PackerForcesBitZero : Prop :=
  (∀ high low : U32,
    (pack high low).toNat = 2 ^ 32 * high.toNat + (2 * (low.toNat / 2) + 1) ∧
    (low.toNat % 2 = 1 → (pack high low).toNat = 2 ^ 32 * high.toNat + low.toNat) ∧
    (low.toNat % 2 = 0 → (pack high low).toNat % 16 = low.toNat % 16 + 1)) ∧
  pack 0x6e9c5db1 0x70d261c8 = 0x6e9c5db170d261c9 ∧ pack 0x4fa75198 0xbc653efa = 0x4fa75198bc653efb

/-! ### The generator step -/

/-- R56, GenStep as arithmetic on numbers, for every context (an even `s` included); `C.s` is not written. -/
def Obligations.GenStepComputesItsFiveStages : Prop :=
  (∀ C : Context,
    let w' := (C.w.toNat + C.s.toNat) % 2 ^ 64
    let sum := (C.x.toNat ^ 2 % 2 ^ 64 + w') % 2 ^ 64
    (genStep C).1.s = C.s ∧ (genStep C).1.w.toNat = w' ∧
    (genStep C).1.x.toNat = 2 ^ 32 * (sum % 2 ^ 32) + sum / 2 ^ 32 ∧ (genStep C).2.toNat = sum / 2 ^ 32) ∧
  (∀ s : U64, (genStep ⟨s, 0, 0⟩).2.toNat = s.toNat / 2 ^ 32 ∧ (genStep ⟨s, 0, 0⟩).1 = ⟨s, rot32 s, s⟩) ∧
  sqr64 0xda1ce2a9b5ad4ece = 0x73f44abee6ae2dc4 ∧
  add64 0xb5ad4eceda1ce2a9 0xb5ad4eceda1ce2a9 = 0x6b5a9d9db439c552 ∧
  add64 0x73f44abee6ae2dc4 0x6b5a9d9db439c552 = 0xdf4ee85c9ae7f316 ∧
  rot32 0xdf4ee85c9ae7f316 = 0x9ae7f316df4ee85c ∧
  genStep ⟨0xb5ad4eceda1ce2a9, 0xda1ce2a9b5ad4ece, 0xb5ad4eceda1ce2a9⟩ =
    (⟨0xb5ad4eceda1ce2a9, 0x9ae7f316df4ee85c, 0x6b5a9d9db439c552⟩, 0xdf4ee85c)

/-- R94: the five stages in sequence are one GenStep; stages 1 and 2 may be done in either order; stage 3 reads the
NEW `w` (with the old one the first output of the check value would be 0). -/
def Obligations.StagesOfAStepCompose : Prop :=
  (∀ C : Context,
    stepRotate (stepSum (stepWeyl (stepSquare C))) = (genStep C).1 ∧
    stepOut (stepRotate (stepSum (stepWeyl (stepSquare C)))) = (genStep C).2 ∧
    stepWeyl (stepSquare C) = stepSquare (stepWeyl C) ∧
    (stepSum (stepWeyl C)).x = add64 C.x (add64 C.w C.s)) ∧
  (genStep ⟨0xb5ad4eceda1ce2a9, 0, 0⟩).2 = 0xb5ad4ece ∧
  stepOut (stepRotate (stepWeyl (stepSum (stepSquare ⟨0xb5ad4eceda1ce2a9, 0, 0⟩)))) = 0

/-- R57, the closed forms: the Weyl accumulator after `n` steps; full period with an odd `s` and none with an even one;
the value returned; seed 1 returns 0 for all steps below 2^32. -/
def Obligations.ClosedFormsOfTheStep : Prop :=
  (∀ (C : Context) (n : Nat), (afterSteps n C).w = C.w + BitVec.ofNat 64 n * C.s) ∧
  (∀ C : Context, isOdd C.s = true → ∀ n m : Nat, n < 2 ^ 64 → m < 2 ^ 64 →
    (afterSteps n C).w = (afterSteps m C).w → n = m) ∧
  (∀ C : Context, isOdd C.s = false → ∃ n m : Nat, n < m ∧ m < 2 ^ 64 ∧ (afterSteps n C).w = (afterSteps m C).w) ∧
  (∀ C : Context, (genStep C).2 = (sqr64 C.x + (genStep C).1.w).extractLsb' 32 32) ∧
  (∀ n : Nat, n < 2 ^ 32 → (afterSteps n ⟨1, 0, 0⟩).x = BitVec.ofNat 64 (2 ^ 32 * n) ∧
    (0 < n → drawAt ⟨1, 0, 0⟩ (n - 1) = 0))

/-! ### The generator commands and the reserved command -/

/-- R58: CONSTRUCT on a ready engine, for every seed; the whole next state, so all else is unchanged. -/
def Obligations.ConstructValidatesParity : Prop :=
  ∀ (seed : U64) (s : State), s.ready = true →
    exec (.construct seed) s = .next
      (if seed.toNat % 2 = 0 then { s with sent := ⟨.invalidSeed, 0⟩ :: s.sent }
       else { s with g := ⟨seed, 0, 0⟩, gv := true, sent := ⟨.ok, 0⟩ :: s.sent })

/-- R59: ADVANCE on a ready engine, with and without a generator; the whole next state; corner cases (a) to (d).
(In (b) the rule says `w` "and hence `x`" change; `x` stays 0 in the one case that the new `w` is 0.) -/
def Obligations.AdvanceStepsTheGenerator : Prop :=
  (∀ s : State, s.ready = true → s.gv = true → ∃ d : U64,
    exec .advance s = .next { s with
      g := ⟨s.g.s, rot32 (add64 (sqr64 s.g.x) (add64 s.g.w s.g.s)), add64 s.g.w s.g.s⟩
      sent := ⟨.ok, d⟩ :: s.sent } ∧
    d.toNat = (add64 (sqr64 s.g.x) (add64 s.g.w s.g.s)).toNat / 2 ^ 32) ∧
  (∀ s : State, s.ready = true → s.gv = false →
    exec .advance s = .next { s with sent := ⟨.notConstructed, 0⟩ :: s.sent }) ∧
  (∀ (seed : U64) (s t : State), s.ready = true → isOdd seed = true → exec (.construct seed) s = .next t →
    ∃ (u : State) (d : U64), exec .advance t = .next u ∧ u.sent = ⟨.ok, d⟩ :: t.sent ∧ d.toNat = seed.toNat / 2 ^ 32) ∧
  (∀ C : Context, isOdd C.s = true → C.x = 0 →
    (genStep C).1.w ≠ C.w ∧ (genStep C).1.x = rot32 (genStep C).1.w ∧
      ((genStep C).1.x = C.x ↔ (genStep C).1.w = 0)) ∧
  (∀ c : CmdWord, c.toNat / 2 ^ 64 = 2 → decode c = .advance)

/-- Every word with `op = 0b00`, presented to a ready engine, is answered ILLEGAL_CMD with data 0 and nothing else
changes (R82). That the finer grain (`start`, log 6) answers it in the accepting step, with no stage of its own, is the
model's deduction, log 10. -/
def Obligations.ReservedCommandIsAnswered : Prop :=
  ∀ (c : CmdWord) (s : State) (rest : List HostEvent), c.toNat < 2 ^ 64 → s.ready = true →
    exec (decode c) s = .next { s with sent := ⟨.illegalCmd, 0⟩ :: s.sent } ∧
    step (s.setInbox (.command c :: rest)) = .next { s with inbox := rest, sent := ⟨.illegalCmd, 0⟩ :: s.sent } ∧
    step (s.setInbox (.start c :: rest)) = .next { s with inbox := rest, sent := ⟨.illegalCmd, 0⟩ :: s.sent }

/-- R60: after a successful `CONSTRUCT s`, the ADVANCE number `n` returns `out_n` of the recurrence, whatever failed
CONSTRUCT and reserved commands come between, and whatever DERIVE_SEED commands that one step of the model carries out
(at most 64 draws for each SAMPLE, log 7; of the others DeriveSeedRespondsIffSamplesFill says that G and `gv` stay); the
first ten values for the source's seed. -/
def Obligations.OutputSequenceIsTheRecurrence : Prop :=
  (∀ (seed : U64) (s t : State) (cs : List Instr), s.ready = true → isOdd seed = true →
    exec (.construct seed) s = .next t → (∀ i ∈ cs, keepsGenerator i) →
    ∃ u v : State, execAll cs t = .next u ∧ u.ready = true ∧
      u.g = afterSteps (cs.count .advance) ⟨seed, 0, 0⟩ ∧ exec .advance u = .next v ∧
      v.sent = ⟨.ok, zext64 (drawAt ⟨seed, 0, 0⟩ (cs.count .advance))⟩ :: u.sent) ∧
  (∀ (C : Context) (n : Nat),
    (afterSteps (n + 1) C).w = add64 (afterSteps n C).w C.s ∧
    (afterSteps (n + 1) C).x = rot32 (add64 (sqr64 (afterSteps n C).x) (afterSteps (n + 1) C).w) ∧
    drawAt C n = low32 (afterSteps (n + 1) C).x) ∧
  (List.range 10).map (drawAt ⟨0xb5ad4eceda1ce2a9, 0, 0⟩) =
    [0xb5ad4ece, 0xdf4ee85c, 0x1889155f, 0xc6dcbccf, 0x1106e0c5, 0x473066ae, 0x374ac427, 0x21e9e9bf,
      0x7294da52, 0x212dbe1a]

/-- R14: `gv` is set by a successful CONSTRUCT and by nothing else (in either grain), cleared by reset and by nothing
else, and an ADVANCE on a ready engine refuses while it is 0. -/
def Obligations.GeneratorValidIsSetByConstructOnly : Prop :=
  (∀ s t : State, step s = .next t → s.gv = false → t.gv = true →
    (∃ c rest seed, s.inbox = .command c :: rest ∧ s.ready = true ∧ decode c = .construct seed ∧ isOdd seed = true) ∨
    (∃ seed, s.ph = .conInit seed)) ∧
  (∀ s t : State, step s = .next t → s.gv = true → t.gv = false → ∃ rest, s.inbox = .reset :: rest) ∧
  (∀ (seed : U64) (s : State), s.ready = true → isOdd seed = true →
    ∃ t, exec (.construct seed) s = .next t ∧ t.gv = true) ∧
  (∀ (s : State) (rest : List HostEvent), s.inbox = .reset :: rest → ∃ t, step s = .next t ∧ t.gv = false) ∧
  (∀ s : State, s.ready = true → s.gv = false →
    exec .advance s = .next { s with sent := ⟨.notConstructed, 0⟩ :: s.sent })

/-- R10 and R61: a step changes `G.s` only by a reset or by a successful CONSTRUCT (in either grain), which stores the
command's argument in it. -/
def Obligations.SeedIsFixedForTheLifetime : Prop :=
  ∀ s t : State, step s = .next t →
    t.g.s = s.g.s ∨
    (∃ rest, s.inbox = .reset :: rest) ∨
    (∃ c rest seed, s.inbox = .command c :: rest ∧ s.ready = true ∧ decode c = .construct seed ∧ isOdd seed = true ∧
      t.g = ⟨seed, 0, 0⟩ ∧ t.gv = true) ∨
    (∃ seed, s.ph = .conInit seed ∧ t.g = ⟨seed, 0, 0⟩ ∧ t.gv = true)

/-- R15, R63, R71 (b), R58 (c), R59 (d): DERIVE_SEED, in one step or stage by stage, never writes G or `gv`; the other
commands never write T, the sampler or the orchestrator registers. -/
def Obligations.ContextsDoNotInterfere : Prop :=
  (∀ (index : U64) (s t : State), exec (.deriveSeed index) s = .next t → t.g = s.g ∧ t.gv = s.gv) ∧
  (∀ (index : U64) (s : State), (accept (.deriveSeed index) s).g = s.g ∧ (accept (.deriveSeed index) s).gv = s.gv) ∧
  (∀ s : State, (s.ph ∈ [.drvSplit, .drvLut, .drvB2, .drvInit, .drvLoad, .drvPack] ∨ ∃ h st, s.ph = .drvSample h st) →
    (stage s).g = s.g ∧ (stage s).gv = s.gv) ∧
  (∀ (i : Instr) (s t : State), (∀ index, i ≠ .deriveSeed index) → exec i s = .next t →
    t.t = s.t ∧ t.smp = s.smp ∧ t.orch = s.orch) ∧
  (∀ s : State, (s.ph ∈ [.advCheck, .advSquare, .advWeyl, .advSum, .advRotate, .advOut] ∨
      ∃ seed, s.ph = .conCheck seed ∨ s.ph = .conInit seed) →
    (stage s).t = s.t ∧ (stage s).smp = s.smp ∧ (stage s).orch = s.orch)

/-! ### The stages of DERIVE_SEED -/

/-- R64 and R66: the stages DRV_SPLIT and DRV_B2, whole next state, with the ranges of the registers. -/
def Obligations.SplitAndCycleStages : Prop :=
  (∀ s : State, s.ph = .drvSplit → ∃ b f : U64,
    stage s = { s with orch := { s.orch with bucket := b, offset := f }, ph := .drvLut } ∧
    s.orch.index.toNat = 100000000 * b.toNat + f.toNat ∧ f.toNat ≤ 99999999 ∧ b.toNat ≤ 184467440737) ∧
  (∀ s : State, s.ph = .drvB2 → ∃ q : U64,
    stage s = { s with orch := { s.orch with bucket2 := q }, ph := .drvInit } ∧
    q.toNat = s.orch.bucket.toNat / 30 ∧
    (s.orch.bucket.toNat ≤ 184467440737 → q.toNat ≤ 6148914691) ∧
    (s.orch.ti.toNat = s.orch.bucket.toNat % 30 → s.orch.bucket.toNat = 30 * q.toNat + s.orch.ti.toNat))

/-- R65: the stage DRV_LUT, whole next state; `ti` is at most 29; consecutive buckets select adjacent entries. -/
def Obligations.LutStageSelectsTheEntry : Prop :=
  (∀ s : State, s.ph = .drvLut → ∃ (e : Fin 30) (ti : U5),
    stage s = { s with orch := { s.orch with ti := ti, tseed := Config.table e }, ph := .drvB2 } ∧
    e.val = s.orch.bucket.toNat % 30 ∧ ti.toNat = e.val ∧ ti.toNat ≤ 29) ∧
  (∀ (o p : Orchestrator), o.index.toNat + 100000000 < 2 ^ 64 → p.index = o.index + 100000000 →
    (selectEntry (splitIndex p)).ti.toNat = ((selectEntry (splitIndex o)).ti.toNat + 1) % 30) ∧
  (∀ o : Orchestrator, (selectEntry (splitIndex o)).ti.toNat = o.index.toNat / 100000000 % 30)

/-- R67: the stage DRV_INIT, whole next state; the formula of the source modulo 2^64; the equivalent form with `p`, which
needs no reduction for the registers of any index. -/
def Obligations.InitialValueForms : Prop :=
  (∀ s : State, s.ph = .drvInit → ∃ v : U64,
    stage s = { s with orch := { s.orch with initial := v }, ph := .drvLoad } ∧
    v.toNat = (s.orch.offset.toNat * s.orch.tseed.toNat +
      100000000 * (s.orch.bucket2.toNat * s.orch.tseed.toNat)) % 2 ^ 64 ∧
    v = mul64 s.orch.tseed (BitVec.ofNat 64 (s.orch.offset.toNat + 100000000 * s.orch.bucket2.toNat)) ∧
    (s.orch.offset = 0 → s.orch.bucket2 = 0 → v = 0)) ∧
  (∀ index : U64, positionOf index < 2 ^ 64) ∧
  (∀ (index : U64) (o : Orchestrator), o.index = index →
    loadedContext (startValue (countCycles (selectEntry (splitIndex o)))) = startContext index)

/-- R68: the stage DRV_LOAD loads T with no parity check and writes nothing else (so not G, not `gv`); T is written only
by a reset, by an accepted DERIVE_SEED and by the stages of one, never by another command word. -/
def Obligations.LoadStageBypassesParity : Prop :=
  (∀ s : State, s.ph = .drvLoad →
    stage s = { s with t := ⟨s.orch.tseed, s.orch.initial, s.orch.initial⟩, ph := .drvSample .high .clear }) ∧
  (∀ s t : State, step s = .next t → t.t ≠ s.t →
    (∃ rest, s.inbox = .reset :: rest) ∨
    (∃ c rest index, s.inbox = .command c :: rest ∧ s.ready = true ∧ decode c = .deriveSeed index) ∨
    s.ph = .drvLoad ∨ ∃ h st, s.ph = .drvSample h st)

/-! ### The sampler -/

/-- R74: a window is taken exactly when its value has not been taken before in this SAMPLE; a skipped window writes
nothing but `k`; a value taken stays marked through every further draw of the SAMPLE. -/
def Obligations.WindowIsTakenOrSkipped : Prop :=
  (∀ (C : Context) (r : Sampler) (v : U4), isUsed r.c v = true → isUsed (drawAndScan C r).2.c v = true) ∧
  ∀ r : Sampler,
    (r.c.getLsbD (nibble r.j r.i).toNat = true → takeWindow r = { r with k := nibble r.j r.i }) ∧
    (r.c.getLsbD (nibble r.j r.i).toNat = false → r.m.toNat ≤ 28 →
      (takeWindow r).m.toNat = r.m.toNat + 4 ∧
      (takeWindow r).a = r.a ||| BitVec.ofNat 32 (2 ^ r.m.toNat * (nibble r.j r.i).toNat) ∧
      (∀ v : U4, isUsed (takeWindow r).c v = (isUsed r.c v || v == nibble r.j r.i)) ∧
      (takeWindow r).j = r.j ∧ (takeWindow r).i = r.i ∧ (takeWindow r).k = nibble r.j r.i)

/-- R73: windows are scanned, and accepted nibbles placed, least-significant first: one draw gives its distinct nibbles
in that order, and a draw of eight distinct nibbles is itself the result. -/
def Obligations.DistinctDrawIsTheResult : Prop :=
  (∀ j : U32, windowsOf j = (List.range 8).map (nibbleAt j)) ∧
  (∀ (r : Sampler) (j : U32),
    (scanWindows windowPositions { cleared r with j := j }).a = placeNibbles (firstSeen (windowsOf j)) ∧
    takenNibbles (scanWindows windowPositions { cleared r with j := j }) = firstSeen (windowsOf j)) ∧
  (∀ (r : Sampler) (j : U32), distinctNibbles j →
    (scanWindows windowPositions { cleared r with j := j }).a = j ∧
    (scanWindows windowPositions { cleared r with j := j }).m.toNat = 32)

/-- R72: a SAMPLE collects the first eight distinct nibbles of the draw stream, in the order encountered, and leaves the
context exactly as its last draw left it (R75). -/
def Obligations.SampleCollectsFirstEightDistinct : Prop :=
  ∀ (C : Context) (r : Sampler) (n : Nat),
    let taken := (firstSeen (nibbleStream C n)).take 8
    let res := sampleDraws n C (cleared r)
    res.2.m.toNat = 4 * taken.length ∧ res.2.a = placeNibbles taken ∧
    (∀ k : U4, isUsed res.2.c k = true ↔ k ∈ taken) ∧
    (∀ d, drawsToFill C d → d ≤ n → res.1 = afterSteps d C) ∧
    ((∀ e < n, ¬ fillsWithin C e) → res.1 = afterSteps n C)

/-- R76: the invariants hold at the start of a SAMPLE and after every window; at the end of it the result has eight
distinct nibbles; how many windows a draw takes. -/
def Obligations.SamplerInvariants : Prop :=
  (∀ r : Sampler, (cleared r).Sound) ∧
  (∀ r : Sampler, r.Sound → r.m.toNat ≤ 28 → (takeWindow r).Sound) ∧
  (∀ (C : Context) (r : Sampler) (n : Nat), (sampleDraws n C (cleared r)).2.Sound) ∧
  (∀ r : Sampler, r.Sound → r.m.toNat = 32 → usedCount r.c = 8 ∧ distinctNibbles r.a) ∧
  (∀ (C : Context) (r : Sampler), 4 ≤ (drawAndScan C (cleared r)).2.m.toNat) ∧
  (∀ (C : Context) (r : Sampler), r.Sound → r.m.toNat ≤ 28 →
    ((drawAndScan C r).2.m = r.m ↔ ∀ k ∈ windowsOf (genStep C).2, isUsed r.c k = true) ∧
    ((drawAndScan C r).2.m = r.m → (drawAndScan C r).2.a = r.a ∧ (drawAndScan C r).2.c = r.c)) ∧
  (∀ C : Context, drawsToFill C 1 ↔ distinctNibbles (genStep C).2) ∧
  (∀ C : Context, ¬ fillsWithin C 0)

/-! ### DERIVE_SEED -/

/-- R63: DERIVE_SEED on a ready engine whose two SAMPLE runs fill (within the draws one step of the model makes, log 7)
answers OK with the packed samples and leaves G, `gv` and the tape unchanged. What T and the orchestrator registers hold
after the response is the model's choice, log 11 (R15 and D22 leave it open): the values the stages wrote. -/
def Obligations.DeriveSeedCompletes : Prop :=
  ∀ (index : U64) (s : State) (n1 n2 : Nat), s.ready = true → bothFill index n1 n2 →
    n1 ≤ Config.drawsPerStep → n2 ≤ Config.drawsPerStep →
    ∃ t : State, exec (.deriveSeed index) s = .next t ∧
      t.sent = ⟨.ok, derivedSeed index n1 n2⟩ :: s.sent ∧ t.ph = .idle ∧
      t.g = s.g ∧ t.gv = s.gv ∧ t.inbox = s.inbox ∧
      t.t = afterSteps n2 (afterSteps n1 (startContext index)) ∧
      t.orch.index = index ∧ t.orch.bucket.toNat = index.toNat / 100000000 ∧
      t.orch.offset.toNat = index.toNat % 100000000 ∧ t.orch.ti.toNat = index.toNat / 100000000 % 30 ∧
      t.orch.tseed = Config.table (entryOf index) ∧ t.orch.bucket2.toNat = index.toNat / 100000000 / 30 ∧
      t.orch.initial = (startContext index).x ∧
      t.orch.high = sampleValue (startContext index) n1 ∧
      t.orch.low = sampleValue (afterSteps n1 (startContext index)) n2

/-- R77, R99: a DERIVE_SEED accepted in either grain answers OK with the packed samples if both SAMPLE runs fill, after
however many draws (there is no draw limit: log 7 changes no response), and responds only if they do; a SAMPLE whose
context never shows eight distinct nibbles keeps the engine busy for ever. -/
def Obligations.DeriveSeedRespondsIffSamplesFill : Prop :=
  (∀ (index : U64) (s : State) (e : HostEvent), s.ready = true →
    (e = .command (encode (.deriveSeed index)) ∨ e = .start (encode (.deriveSeed index))) →
    (∀ n1 n2 : Nat, bothFill index n1 n2 →
      ∃ (k : Nat) (t : State), runFor k (s.setInbox [e]) = .next t ∧ t.ready = true ∧ t.inbox = [] ∧
        t.sent = ⟨.ok, derivedSeed index n1 n2⟩ :: s.sent ∧ t.g = s.g ∧ t.gv = s.gv) ∧
    ((∃ (k : Nat) (t : State), runFor (k + 1) (s.setInbox [e]) = .next t ∧ t.ready = true) ↔
      ∃ n1 n2 : Nat, bothFill index n1 n2)) ∧
  (∀ (h : Half) (s : State), s.ph = .drvSample h .clear → s.inbox = [] → (∀ n : Nat, ¬ fillsWithin s.t n) →
    ∀ (k : Nat) (t : State), runFor k s = .next t →
      t.ready = false ∧ t.sent = s.sent ∧ t.g = s.g ∧ t.gv = s.gv)

/-- R70: every seed that a DERIVE_SEED answers, in one step or by its last stage, is PACK of the two samples and odd, so
that a CONSTRUCT with it succeeds; the samples themselves have distinct nibbles (R69), the packed seed need not
(`DERIVE 4`, which uses TABLE[0] as the spec derives it: log 5). Where a clause reads `high` or `low` after the response,
that they are still there is the model's choice, log 11. -/
def Obligations.DerivedSeedIsOdd : Prop :=
  (∀ (index : U64) (s t : State) (r : Response), exec (.deriveSeed index) s = .next t → t.sent = r :: s.sent →
    r.status = .ok ∧ r.data = pack t.orch.high t.orch.low ∧ isOdd r.data = true ∧
    ∀ u : State, u.ready = true → ∃ v, exec (.construct r.data) u = .next v ∧ v.sent = ⟨.ok, 0⟩ :: u.sent) ∧
  (∀ s : State, s.ph = .drvPack → (stage s).sent = ⟨.ok, pack s.orch.high s.orch.low⟩ :: s.sent ∧
    isOdd (pack s.orch.high s.orch.low) = true) ∧
  (∀ (C : Context) (n : Nat), drawsToFill C n → distinctNibbles (sampleValue C n)) ∧
  (∃ t : State, exec (.deriveSeed 4) State.reset = .next t ∧ t.orch.low = 0xbc653efa ∧
    t.sent = [⟨.ok, 0x4fa75198bc653efb⟩]) ∧
  (distinctNibbles 0xbc653efa ∧ ¬ distinctNibbles (low32 0x4fa75198bc653efb))

/-- R71: DERIVE_SEED's response is a function of the index and the table alone: it is the same from any two ready states,
constructed or not, and each keeps its own G and `gv`. Two clauses are the model's: that both are at the same stage after
one step (log 7, the draws of one step) and that they hold the same T, also after the response (log 11; D22 leaves T's
contents open there). -/
def Obligations.DeriveSeedIsAFunctionOfItsIndex : Prop :=
  ∀ (index : U64) (s s' : State), s.ready = true → s'.ready = true →
    ∃ (t t' : State) (rs : List Response), exec (.deriveSeed index) s = .next t ∧ exec (.deriveSeed index) s' = .next t' ∧
      t.sent = rs ++ s.sent ∧ t'.sent = rs ++ s'.sent ∧ t.ph = t'.ph ∧ t.t = t'.t ∧
      t.g = s.g ∧ t.gv = s.gv ∧ t'.g = s'.g ∧ t'.gv = s'.gv

/-- R96: a DERIVE_SEED between two ADVANCE commands does not change what the second answers, and an ADVANCE or CONSTRUCT
between two DERIVE_SEED commands does not change what the second answers. -/
def Obligations.InterleavingChangesNoResponse : Prop :=
  (∀ (index : U64) (s t u v : State), s.ready = true → exec (.deriveSeed index) s = .next t → t.ready = true →
    exec .advance s = .next u → exec .advance t = .next v →
    u.sent.head? = v.sent.head? ∧ u.g = v.g) ∧
  (∀ (index : U64) (i : Instr) (s t u v : State), s.ready = true → (i = .advance ∨ ∃ seed, i = .construct seed) →
    exec i s = .next t → exec (.deriveSeed index) s = .next u → exec (.deriveSeed index) t = .next v →
    u.ready = v.ready ∧ (u.ready = true → u.sent.head? = v.sent.head?))

/-! ### The machine -/

/-- When the word presented to a ready engine decodes to a command, the step is `exec` of it, past that word of the
tape; `withFetchWord` sets exactly that up (log 15); `start`, `wait` and `reset` do what log 1 and log 6 say. -/
def Obligations.StepRunsTheDecodedCommand : Prop :=
  (∀ (s : State) (c : CmdWord) (rest : List HostEvent), s.ready = true → s.inbox = .command c :: rest →
    step s = exec (decode c) (s.setInbox rest)) ∧
  (∀ (s : State) (nbits w : Nat), w < 2 ^ nbits → w < 2 ^ 66 →
    ∃ i, decodeTableWord nbits w = some i ∧ step (s.withFetchWord nbits w) = exec i (s.setPh .idle)) ∧
  (∀ (s : State) (c : CmdWord) (rest : List HostEvent), s.ready = true → s.inbox = .start c :: rest →
    step s = .next (accept (decode c) (s.setInbox rest))) ∧
  (∀ (s : State) (rest : List HostEvent), s.inbox = .wait :: rest → step s = .next (stage (s.setInbox rest)))

/-- R43 (a): a command word presented while the engine is busy is not accepted and has no effect: the word stays
presented while the engine makes its next stage. That `exec` of any command on a busy engine answers the same state is
the model's deduction from it, log 12. -/
def Obligations.BusyEngineAcceptsNothing : Prop :=
  ∀ (s : State) (c : CmdWord) (rest : List HostEvent), s.ready = false →
    (s.inbox = .command c :: rest ∨ s.inbox = .start c :: rest →
      ∃ t, step s = .next t ∧ t = stage s ∧ t.inbox = s.inbox ∧ step (s.setInbox []) = .next (t.setInbox [])) ∧
    ∀ i : Instr, exec i s = .next s

/-- R43 (b), as a conservation law of every step that is no reset: responses delivered plus commands not yet answered
grow by exactly the commands accepted, one response at a time. -/
def Obligations.OneResponsePerAcceptedCommand : Prop :=
  ∀ s t : State, step s = .next t → (∀ rest, s.inbox ≠ .reset :: rest) →
    (t.sent = s.sent ∨ ∃ r, t.sent = r :: s.sent ∧ t.ready = true) ∧
    t.sent.length + unanswered t = s.sent.length + unanswered s + (if accepting s then 1 else 0)

/-- R92 (and R91, R85 (a)): a reset, whatever stage had been reached, gives `gv = 0` and an idle engine, and the command
in progress is abandoned without a response; a busy engine becomes ready only by a reset or by its response. (The
registers the spec leaves unspecified are not mentioned.) -/
def Obligations.ResetAbandonsTheCommand : Prop :=
  (∀ (s : State) (rest : List HostEvent), s.inbox = .reset :: rest →
    ∃ t, step s = .next t ∧ t.gv = false ∧ t.ph = .idle ∧ t.inbox = rest ∧ t.sent = s.sent) ∧
  (∀ s t : State, step s = .next t → s.ready = false → t.ready = true →
    (∃ rest, s.inbox = .reset :: rest) ∨ ∃ r, t.sent = r :: s.sent)

/-- The reset values that R23 gives: `gv = 0`, `ph = IDLE`; and an ADVANCE then answers NOT_CONSTRUCTED (R93). -/
def Obligations.ResetState : Prop :=
  State.reset.gv = false ∧ State.reset.ph = .idle ∧ State.reset.ready = true ∧
  ∃ t, exec .advance State.reset = .next t ∧ t.sent = [⟨.notConstructed, 0⟩] ∧ t.gv = false

/-- The invariant holds after reset. -/
def Obligations.InvariantAtReset : Prop := Inv State.reset

/-- R13, and the registers of every stage: every step keeps the invariant, from every state that has it. -/
def Obligations.EveryStepKeepsTheInvariant : Prop :=
  ∀ s t : State, Inv s → step s = .next t → Inv t

/-- R83, R100, R101: nothing faults, nothing is refused and nothing halts: every step, whatever the host does, and every
command answers a next state. -/
def Obligations.EveryStepAnswersANextState : Prop :=
  (∀ s : State, ∃ t, step s = .next t) ∧ (∀ (i : Instr) (s : State), ∃ t, exec i s = .next t) ∧
  ∀ (n : Nat) (s : State), ∃ t, runFor n s = .next t

/-- R24: no register is read before it is written. Two states with the same live part (equal `gv`, `ph`, tape and
responses, and equal registers where a later stage reads them) step to states with the same live part, so no response
ever depends on a register the spec leaves unspecified (R23, U6) or on what a DERIVE_SEED left behind (R71 (a), D22). -/
def Obligations.NoResponseDependsOnUnspecifiedRegisters : Prop :=
  ∀ s t : State, livePart s = livePart t →
    ∃ s' t' : State, step s = .next s' ∧ step t = .next t' ∧ livePart s' = livePart t' ∧ s'.sent = t'.sent

/-- R18: the finer model, which splits a command at each stage boundary, gives the same response and the same final G and
`gv` as the command carried out as one transaction (the two grains are log 6). The statement says more than R18: the whole
states are equal, T and the scratch registers included, which rests on the stages inside SAMPLE (log 8), on what a
DERIVE_SEED leaves behind (log 11), on the draws of one step (log 7) and on the reserved command's acceptance (log 10). -/
def Obligations.StageByStageEqualsTransaction : Prop :=
  ∀ (c : CmdWord) (s : State), s.ready = true → s.inbox = [] →
    ∃ (n : Nat) (t : State), exec (decode c) s = .next t ∧ runFor n (s.setInbox [.start c]) = .next t

/-- CONSTRUCT, ADVANCE and the reserved command always respond after finitely many stages (R62, R99). The bound of seven
steps is the six stages of ADVANCE in R18's table after a step of acceptance (one stage a step, log 6); the reserved
command has no stage (log 10), and a command that has responded earlier idles for the steps left (log 13). -/
def Obligations.ShortCommandsRespond : Prop :=
  ∀ (c : CmdWord) (s : State), s.ready = true → s.inbox = [] → c.toNat / 2 ^ 64 ≠ 3 →
    ∃ (t : State) (r : Response), runFor 7 (s.setInbox [.start c]) = .next t ∧ t.ready = true ∧ t.sent = r :: s.sent

/-- R79 and R86: on a ready engine each error status arises exactly in its condition, with data 0, and an error response
leaves no trace: everything but the delivered response is as before. -/
def Obligations.ErrorResponsesLeaveNoTrace : Prop :=
  ∀ (i : Instr) (s t : State) (r : Response), s.ready = true → exec i s = .next t → t.sent = r :: s.sent →
    (r.status = .invalidSeed ↔ ∃ seed, i = .construct seed ∧ isOdd seed = false) ∧
    (r.status = .notConstructed ↔ i = .advance ∧ s.gv = false) ∧
    (r.status = .illegalCmd ↔ i = .illegal) ∧
    (r.status ≠ .ok → r.data = 0 ∧ t = { s with sent := ⟨r.status, 0⟩ :: s.sent })

/-- R100: the engine never halts by itself: idle with nothing presented, it stays as it is (log 13). -/
def Obligations.IdleEngineWaits : Prop :=
  ∀ s : State, s.ready = true →
    (s.inbox = [] → step s = .next s) ∧
    (∀ rest, s.inbox = .wait :: rest → step s = .next { s with inbox := rest })

/-- R26, R27: a LUT read gives the table's entry, every entry is odd (the premise of U4, built into Config: log 5), and
entry 0 is the one the spec derives. -/
def Obligations.LutEntriesAreOdd : Prop :=
  (∀ e : Fin 30, lut e = Config.table e ∧ isOdd (lut e) = true) ∧ lut 0 = 0x8b5ad4ce914ecdf7
end

