-- ==== Sys2Proof/Laws/State.lean ====
section
/-! SUPPORT. The small lemmas of State: one per field per update, so that no later proof unfolds a record update. -/

namespace Sys2Proof.Machine

@[simp] theorem State.setG_g (s : State) (v : Context) : (s.setG v).g = v := rfl
@[simp] theorem State.setG_gv (s : State) (v : Context) : (s.setG v).gv = s.gv := rfl
@[simp] theorem State.setG_t (s : State) (v : Context) : (s.setG v).t = s.t := rfl
@[simp] theorem State.setG_smp (s : State) (v : Context) : (s.setG v).smp = s.smp := rfl
@[simp] theorem State.setG_orch (s : State) (v : Context) : (s.setG v).orch = s.orch := rfl
@[simp] theorem State.setG_ph (s : State) (v : Context) : (s.setG v).ph = s.ph := rfl
@[simp] theorem State.setG_inbox (s : State) (v : Context) : (s.setG v).inbox = s.inbox := rfl
@[simp] theorem State.setG_sent (s : State) (v : Context) : (s.setG v).sent = s.sent := rfl

@[simp] theorem State.setGv_g (s : State) (v : Bool) : (s.setGv v).g = s.g := rfl
@[simp] theorem State.setGv_gv (s : State) (v : Bool) : (s.setGv v).gv = v := rfl
@[simp] theorem State.setGv_t (s : State) (v : Bool) : (s.setGv v).t = s.t := rfl
@[simp] theorem State.setGv_smp (s : State) (v : Bool) : (s.setGv v).smp = s.smp := rfl
@[simp] theorem State.setGv_orch (s : State) (v : Bool) : (s.setGv v).orch = s.orch := rfl
@[simp] theorem State.setGv_ph (s : State) (v : Bool) : (s.setGv v).ph = s.ph := rfl
@[simp] theorem State.setGv_inbox (s : State) (v : Bool) : (s.setGv v).inbox = s.inbox := rfl
@[simp] theorem State.setGv_sent (s : State) (v : Bool) : (s.setGv v).sent = s.sent := rfl

@[simp] theorem State.setT_g (s : State) (v : Context) : (s.setT v).g = s.g := rfl
@[simp] theorem State.setT_gv (s : State) (v : Context) : (s.setT v).gv = s.gv := rfl
@[simp] theorem State.setT_t (s : State) (v : Context) : (s.setT v).t = v := rfl
@[simp] theorem State.setT_smp (s : State) (v : Context) : (s.setT v).smp = s.smp := rfl
@[simp] theorem State.setT_orch (s : State) (v : Context) : (s.setT v).orch = s.orch := rfl
@[simp] theorem State.setT_ph (s : State) (v : Context) : (s.setT v).ph = s.ph := rfl
@[simp] theorem State.setT_inbox (s : State) (v : Context) : (s.setT v).inbox = s.inbox := rfl
@[simp] theorem State.setT_sent (s : State) (v : Context) : (s.setT v).sent = s.sent := rfl

@[simp] theorem State.setSmp_g (s : State) (v : Sampler) : (s.setSmp v).g = s.g := rfl
@[simp] theorem State.setSmp_gv (s : State) (v : Sampler) : (s.setSmp v).gv = s.gv := rfl
@[simp] theorem State.setSmp_t (s : State) (v : Sampler) : (s.setSmp v).t = s.t := rfl
@[simp] theorem State.setSmp_smp (s : State) (v : Sampler) : (s.setSmp v).smp = v := rfl
@[simp] theorem State.setSmp_orch (s : State) (v : Sampler) : (s.setSmp v).orch = s.orch := rfl
@[simp] theorem State.setSmp_ph (s : State) (v : Sampler) : (s.setSmp v).ph = s.ph := rfl
@[simp] theorem State.setSmp_inbox (s : State) (v : Sampler) : (s.setSmp v).inbox = s.inbox := rfl
@[simp] theorem State.setSmp_sent (s : State) (v : Sampler) : (s.setSmp v).sent = s.sent := rfl

@[simp] theorem State.setOrch_g (s : State) (v : Orchestrator) : (s.setOrch v).g = s.g := rfl
@[simp] theorem State.setOrch_gv (s : State) (v : Orchestrator) : (s.setOrch v).gv = s.gv := rfl
@[simp] theorem State.setOrch_t (s : State) (v : Orchestrator) : (s.setOrch v).t = s.t := rfl
@[simp] theorem State.setOrch_smp (s : State) (v : Orchestrator) : (s.setOrch v).smp = s.smp := rfl
@[simp] theorem State.setOrch_orch (s : State) (v : Orchestrator) : (s.setOrch v).orch = v := rfl
@[simp] theorem State.setOrch_ph (s : State) (v : Orchestrator) : (s.setOrch v).ph = s.ph := rfl
@[simp] theorem State.setOrch_inbox (s : State) (v : Orchestrator) : (s.setOrch v).inbox = s.inbox := rfl
@[simp] theorem State.setOrch_sent (s : State) (v : Orchestrator) : (s.setOrch v).sent = s.sent := rfl

@[simp] theorem State.setPh_g (s : State) (v : Phase) : (s.setPh v).g = s.g := rfl
@[simp] theorem State.setPh_gv (s : State) (v : Phase) : (s.setPh v).gv = s.gv := rfl
@[simp] theorem State.setPh_t (s : State) (v : Phase) : (s.setPh v).t = s.t := rfl
@[simp] theorem State.setPh_smp (s : State) (v : Phase) : (s.setPh v).smp = s.smp := rfl
@[simp] theorem State.setPh_orch (s : State) (v : Phase) : (s.setPh v).orch = s.orch := rfl
@[simp] theorem State.setPh_ph (s : State) (v : Phase) : (s.setPh v).ph = v := rfl
@[simp] theorem State.setPh_inbox (s : State) (v : Phase) : (s.setPh v).inbox = s.inbox := rfl
@[simp] theorem State.setPh_sent (s : State) (v : Phase) : (s.setPh v).sent = s.sent := rfl

@[simp] theorem State.setInbox_g (s : State) (v : List HostEvent) : (s.setInbox v).g = s.g := rfl
@[simp] theorem State.setInbox_gv (s : State) (v : List HostEvent) : (s.setInbox v).gv = s.gv := rfl
@[simp] theorem State.setInbox_t (s : State) (v : List HostEvent) : (s.setInbox v).t = s.t := rfl
@[simp] theorem State.setInbox_smp (s : State) (v : List HostEvent) : (s.setInbox v).smp = s.smp := rfl
@[simp] theorem State.setInbox_orch (s : State) (v : List HostEvent) : (s.setInbox v).orch = s.orch := rfl
@[simp] theorem State.setInbox_ph (s : State) (v : List HostEvent) : (s.setInbox v).ph = s.ph := rfl
@[simp] theorem State.setInbox_inbox (s : State) (v : List HostEvent) : (s.setInbox v).inbox = v := rfl
@[simp] theorem State.setInbox_sent (s : State) (v : List HostEvent) : (s.setInbox v).sent = s.sent := rfl

@[simp] theorem State.setSent_g (s : State) (v : List Response) : (s.setSent v).g = s.g := rfl
@[simp] theorem State.setSent_gv (s : State) (v : List Response) : (s.setSent v).gv = s.gv := rfl
@[simp] theorem State.setSent_t (s : State) (v : List Response) : (s.setSent v).t = s.t := rfl
@[simp] theorem State.setSent_smp (s : State) (v : List Response) : (s.setSent v).smp = s.smp := rfl
@[simp] theorem State.setSent_orch (s : State) (v : List Response) : (s.setSent v).orch = s.orch := rfl
@[simp] theorem State.setSent_ph (s : State) (v : List Response) : (s.setSent v).ph = s.ph := rfl
@[simp] theorem State.setSent_inbox (s : State) (v : List Response) : (s.setSent v).inbox = s.inbox := rfl
@[simp] theorem State.setSent_sent (s : State) (v : List Response) : (s.setSent v).sent = v := rfl

@[simp] theorem State.respond_g (s : State) (st : Status) (d : U64) : (s.respond st d).g = s.g := rfl
@[simp] theorem State.respond_gv (s : State) (st : Status) (d : U64) : (s.respond st d).gv = s.gv := rfl
@[simp] theorem State.respond_t (s : State) (st : Status) (d : U64) : (s.respond st d).t = s.t := rfl
@[simp] theorem State.respond_smp (s : State) (st : Status) (d : U64) : (s.respond st d).smp = s.smp := rfl
@[simp] theorem State.respond_orch (s : State) (st : Status) (d : U64) : (s.respond st d).orch = s.orch := rfl
@[simp] theorem State.respond_ph (s : State) (st : Status) (d : U64) : (s.respond st d).ph = .idle := rfl
@[simp] theorem State.respond_inbox (s : State) (st : Status) (d : U64) : (s.respond st d).inbox = s.inbox := rfl
@[simp] theorem State.respond_sent (s : State) (st : Status) (d : U64) : (s.respond st d).sent = ⟨st, d⟩ :: s.sent := rfl

@[simp] theorem State.errorResponse_g (s : State) (st : Status) : (s.errorResponse st).g = s.g := rfl
@[simp] theorem State.errorResponse_gv (s : State) (st : Status) : (s.errorResponse st).gv = s.gv := rfl
@[simp] theorem State.errorResponse_t (s : State) (st : Status) : (s.errorResponse st).t = s.t := rfl
@[simp] theorem State.errorResponse_smp (s : State) (st : Status) : (s.errorResponse st).smp = s.smp := rfl
@[simp] theorem State.errorResponse_orch (s : State) (st : Status) : (s.errorResponse st).orch = s.orch := rfl
@[simp] theorem State.errorResponse_ph (s : State) (st : Status) : (s.errorResponse st).ph = .idle := rfl
@[simp] theorem State.errorResponse_inbox (s : State) (st : Status) : (s.errorResponse st).inbox = s.inbox := rfl
@[simp] theorem State.errorResponse_sent (s : State) (st : Status) : (s.errorResponse st).sent = ⟨st, 0⟩ :: s.sent := rfl

@[simp] theorem State.resetEvent_gv (s : State) : s.resetEvent.gv = false := rfl
@[simp] theorem State.resetEvent_ph (s : State) : s.resetEvent.ph = .idle := rfl
@[simp] theorem State.resetEvent_inbox (s : State) : s.resetEvent.inbox = s.inbox := rfl
@[simp] theorem State.resetEvent_sent (s : State) : s.resetEvent.sent = s.sent := rfl

/-- Two states with the same fields are the same. -/
theorem State.ext_fields {s t : State} (hg : s.g = t.g) (hgv : s.gv = t.gv) (ht : s.t = t.t) (hsmp : s.smp = t.smp)
    (horch : s.orch = t.orch) (hph : s.ph = t.ph) (hinbox : s.inbox = t.inbox) (hsent : s.sent = t.sent) : s = t := by
  cases s; cases t; simp_all

theorem State.ready_iff (s : State) : s.ready = true ↔ s.ph = .idle := by simp [State.ready]

theorem State.whenReady_of_ready {s : State} (h : s.ready = true) (f : State → State) : s.whenReady f = f s := by
  simp [State.whenReady, h]

theorem State.whenReady_of_busy {s : State} (h : s.ready = false) (f : State → State) : s.whenReady f = s := by
  simp [State.whenReady, h]

end Sys2Proof.Machine
end

