-- ==== Sys2Proof/Laws/Datapath.lean ====
section
/-! SUPPORT. One spec lemma per datapath unit, over natural numbers (40_datapath_units.md), and the fields after a
generator step. -/

namespace Sys2Proof.Machine

/-- R47. -/
theorem sqr64_toNat (v : U64) : (sqr64 v).toNat = v.toNat ^ 2 % 2 ^ 64 := by
  simp [sqr64, BitVec.toNat_mul, Nat.pow_two]

/-- R48. -/
theorem add64_toNat (p q : U64) : (add64 p q).toNat = (p.toNat + q.toNat) % 2 ^ 64 := by simp [add64]

/-- R51. -/
theorem mul64_toNat (p q : U64) : (mul64 p q).toNat = p.toNat * q.toNat % 2 ^ 64 := by simp [mul64]

/-- R50. -/
theorem low32_toNat (v : U64) : (low32 v).toNat = v.toNat % 2 ^ 32 := by simp [low32, BitVec.extractLsb'_toNat]

/-- R49. -/
theorem rot32_toNat (v : U64) : (rot32 v).toNat = 2 ^ 32 * (v.toNat % 2 ^ 32) + v.toNat / 2 ^ 32 := by
  have hl := v.isLt
  simp only [rot32, BitVec.toNat_append, BitVec.extractLsb'_toNat]
  rw [Nat.shiftLeft_eq, Nat.mul_comm _ (2^32), ← Nat.two_pow_add_eq_or_of_lt (by omega)]
  simp [Nat.shiftRight_eq_div_pow]; omega

/-- R50: what a step returns is the high half of its sum. -/
theorem low32_rot32_toNat (v : U64) : (low32 (rot32 v)).toNat = v.toNat / 2 ^ 32 := by
  have := v.isLt
  rw [low32_toNat, rot32_toNat]; omega

/-- R53. -/
theorem nibble_toNat (j : U32) (i : U5) : (nibble j i).toNat = j.toNat / 2 ^ i.toNat % 16 := by
  simp [nibble, BitVec.extractLsb'_toNat, Nat.shiftRight_eq_div_pow]

/-- R54. -/
theorem pack_toNat (high low : U32) : (pack high low).toNat = 2 ^ 32 * high.toNat + (2 * (low.toNat / 2) + 1) := by
  have h1 := high.isLt; have h2 := low.isLt
  simp only [pack, BitVec.toNat_or, BitVec.toNat_shiftLeft, BitVec.toNat_setWidth, Nat.shiftLeft_eq]
  have e1 : high.toNat % 2^64 * 2^32 % 2^64 = 2^32 * high.toNat := by omega
  have e2 : low.toNat % 2^64 = low.toNat := by omega
  rw [e1, e2, ← Nat.two_pow_add_eq_or_of_lt h2]
  have e3 : BitVec.toNat 1#64 = 1 := rfl
  rw [e3]
  have : 2^32 * high.toNat + low.toNat = 2^1 * (2^31 * high.toNat + low.toNat/2) + low.toNat % 2 := by omega
  rw [this, Nat.two_pow_add_eq_or_of_lt (by omega), Nat.or_assoc]
  have : low.toNat % 2 ||| 1 = 1 := by have : low.toNat % 2 = 0 ∨ low.toNat % 2 = 1 := by omega
                                       rcases this with h | h <;> rw [h] <;> rfl
  rw [this, ← Nat.two_pow_add_eq_or_of_lt (by omega)]; omega

theorem isOdd_iff (v : U64) : isOdd v = true ↔ v.toNat % 2 = 1 := by
  simp [isOdd, BitVec.getLsbD, Nat.testBit_zero]

theorem isOdd_eq_false_iff (v : U64) : isOdd v = false ↔ v.toNat % 2 = 0 := by
  rw [← Bool.not_eq_true, isOdd_iff]; omega

theorem zext64_toNat (v : U32) : (zext64 v).toNat = v.toNat := by simp [zext64]; omega

/-- A packed seed is odd (42_seed_deriver.md R70). -/
theorem pack_odd (a b) : isOdd (pack a b) = true := by rw [isOdd_iff, pack_toNat]; omega

/-- R56, stage 2. -/
theorem genStep_w (C : Context) : (genStep C).1.w = add64 C.w C.s := rfl

/-- R56: the step does not write `C.s`. -/
theorem genStep_s (C : Context) : (genStep C).1.s = C.s := rfl

/-- R56, stage 4. -/
theorem genStep_x (C : Context) : (genStep C).1.x = rot32 (add64 (sqr64 C.x) (add64 C.w C.s)) := rfl

/-- R56, stage 5. -/
theorem genStep_out (C : Context) : (genStep C).2 = low32 (rot32 (add64 (sqr64 C.x) (add64 C.w C.s))) := rfl

end Sys2Proof.Machine
end

