-- ==== Sys2Proof/Laws/Commands.lean ====
section
/-! SUPPORT. Said once: what each command answers, what one step can do, and what the stages of a SAMPLE can do. Later
proofs cite these lemmas and unfold neither `exec` nor `step` nor `stage`. -/

namespace Sys2Proof.Machine

/-- A busy engine: nothing happens (30_encoding.md R43 (a)). -/
theorem exec_busy {s : State} (h : s.ready = false) (i : Instr) : exec i s = .next s := by
  cases i <;> simp [exec, execIllegal, execConstruct, execAdvance, execDeriveSeed, State.whenReady_of_busy h]

/-- The reserved command (R82). -/
theorem exec_illegal {s : State} (h : s.ready = true) : exec .illegal s = .next (s.errorResponse .illegalCmd) := by
  simp [exec, execIllegal, State.whenReady_of_ready h]

/-- CONSTRUCT with an odd seed (R58). -/
theorem exec_construct_odd {s : State} (h : s.ready = true) {seed : U64} (ho : isOdd seed = true) :
    exec (.construct seed) s = .next (initGenerator seed s) := by
  simp [exec, execConstruct, State.whenReady_of_ready h, ho]

/-- CONSTRUCT with an even seed (R58). -/
theorem exec_construct_even {s : State} (h : s.ready = true) {seed : U64} (ho : isOdd seed = false) :
    exec (.construct seed) s = .next (s.errorResponse .invalidSeed) := by
  simp [exec, execConstruct, State.whenReady_of_ready h, ho]

/-- ADVANCE of a constructed generator (R59). -/
theorem exec_advance_valid {s : State} (h : s.ready = true) (hv : s.gv = true) :
    exec .advance s = .next ((s.setG (genStep s.g).1).respond .ok (zext64 (genStep s.g).2)) := by
  simp [exec, execAdvance, State.whenReady_of_ready h, hv]

/-- ADVANCE with no generator (R59). -/
theorem exec_advance_invalid {s : State} (h : s.ready = true) (hv : s.gv = false) :
    exec .advance s = .next (s.errorResponse .notConstructed) := by
  simp [exec, execAdvance, State.whenReady_of_ready h, hv]

/-- DERIVE_SEED (R63). -/
theorem exec_deriveSeed {s : State} (h : s.ready = true) (index : U64) :
    exec (.deriveSeed index) s = .next (derive index s) := by
  simp [exec, execDeriveSeed, State.whenReady_of_ready h, derive]

theorem exec_deriveSeed_eq {index s t} (h : exec (.deriveSeed index) s = .next t) : (s.ready = false ∧ t = s) ∨ (s.ready = true ∧ t = derive index s) := by
  cases hr : s.ready
  · rw [exec_busy hr] at h; simp at h; exact .inl ⟨rfl, h.symm⟩
  · rw [exec_deriveSeed hr] at h; simp at h; exact .inr ⟨rfl, h.symm⟩

/-- Everything one step can be. -/
theorem step_cases {s t : State} (h : step s = .next t) :
    (s.inbox = [] ∧ t = stage s) ∨
    (∃ rest, s.inbox = .wait :: rest ∧ t = stage (s.setInbox rest)) ∨
    (∃ rest, s.inbox = .reset :: rest ∧ t = (s.setInbox rest).resetEvent) ∨
    (∃ c rest, s.inbox = .command c :: rest ∧ s.ready = true ∧ exec (decode c) (s.setInbox rest) = .next t) ∨
    (∃ c rest, s.inbox = .start c :: rest ∧ s.ready = true ∧ t = accept (decode c) (s.setInbox rest)) ∨
    (∃ c rest, (s.inbox = .command c :: rest ∨ s.inbox = .start c :: rest) ∧ s.ready = false ∧ t = stage s) := by
  unfold step at h
  split at h <;> rename_i hi
  · simp at h; exact .inl ⟨hi, h.symm⟩
  · simp at h; exact .inr (.inl ⟨_, hi, h.symm⟩)
  · simp at h; exact .inr (.inr (.inl ⟨_, hi, h.symm⟩))
  · split at h <;> rename_i hr
    · exact .inr (.inr (.inr (.inl ⟨_, _, hi, hr, h⟩)))
    · simp at h hr; exact .inr (.inr (.inr (.inr (.inr ⟨_, _, .inl hi, hr, h.symm⟩))))
  · split at h <;> rename_i hr
    · simp at h; exact .inr (.inr (.inr (.inr (.inl ⟨_, _, hi, hr, h.symm⟩))))
    · simp at h hr; exact .inr (.inr (.inr (.inr (.inr ⟨_, _, .inr hi, hr, h.symm⟩))))

/-- On a ready engine an error response changes nothing but the responses delivered. -/
theorem ready_errorResponse {s : State} (h : s.ready = true) (st) : s.errorResponse st = { s with sent := ⟨st, 0⟩ :: s.sent } := by
  rw [State.ready_iff] at h; cases s; simp_all [State.errorResponse, State.respond, State.setSent, State.setPh]

theorem scanStage_full (h : Half) (s : State) (h1 : (takeWindow s.smp).m = 32) :
    scanStage h s = finishHalf h (s.setSmp (takeWindow s.smp)) := if_pos h1

theorem scanStage_draw (h : Half) (s : State) (h1 : (takeWindow s.smp).m ≠ 32) (h2 : (takeWindow s.smp).i = 28) (h3 : (takeWindow s.smp).m < 32) :
    scanStage h s = (s.setSmp (takeWindow s.smp)).setPh (.drvSample h .drawSquare) :=
  (if_neg h1).trans ((if_pos h2).trans (if_pos h3))

theorem scanStage_over (h : Half) (s : State) (h1 : (takeWindow s.smp).m ≠ 32) (h2 : (takeWindow s.smp).i = 28) (h3 : ¬ (takeWindow s.smp).m < 32) :
    scanStage h s = finishHalf h (s.setSmp (takeWindow s.smp)) :=
  (if_neg h1).trans ((if_pos h2).trans (if_neg h3))

theorem scanStage_next (h : Half) (s : State) (h1 : (takeWindow s.smp).m ≠ 32) (h2 : (takeWindow s.smp).i ≠ 28) :
    scanStage h s = s.setSmp { takeWindow s.smp with i := (takeWindow s.smp).i + 4 } :=
  (if_neg h1).trans (if_neg h2)

/-- Everything the stage SMP_SCAN can do. -/
theorem scanStage_cases (h : Half) (s : State) :
   ((takeWindow s.smp).m = 32 ∧ scanStage h s = finishHalf h (s.setSmp (takeWindow s.smp))) ∨
   ((takeWindow s.smp).m ≠ 32 ∧ (takeWindow s.smp).i = 28 ∧ (takeWindow s.smp).m < 32 ∧ scanStage h s = (s.setSmp (takeWindow s.smp)).setPh (.drvSample h .drawSquare)) ∨
   ((takeWindow s.smp).m ≠ 32 ∧ (takeWindow s.smp).i = 28 ∧ ¬ (takeWindow s.smp).m < 32 ∧ scanStage h s = finishHalf h (s.setSmp (takeWindow s.smp))) ∨
   ((takeWindow s.smp).m ≠ 32 ∧ (takeWindow s.smp).i ≠ 28 ∧ scanStage h s = s.setSmp { takeWindow s.smp with i := (takeWindow s.smp).i + 4 }) := by
  by_cases h1 : (takeWindow s.smp).m = 32
  · exact .inl ⟨h1, scanStage_full h s h1⟩
  · by_cases h2 : (takeWindow s.smp).i = 28
    · by_cases h3 : (takeWindow s.smp).m < 32
      · exact .inr (.inl ⟨h1, h2, h3, scanStage_draw h s h1 h2 h3⟩)
      · exact .inr (.inr (.inl ⟨h1, h2, h3, scanStage_over h s h1 h2 h3⟩))
    · exact .inr (.inr (.inr ⟨h1, h2, scanStage_next h s h1 h2⟩))

theorem finishHalf_setInbox (h : Half) (s : State) (l) : finishHalf h (s.setInbox l) = (finishHalf h s).setInbox l := rfl

theorem scanStage_setInbox (h : Half) (s : State) (l) : scanStage h (s.setInbox l) = (scanStage h s).setInbox l := by
  rcases scanStage_cases h s with ⟨h1, e⟩ | ⟨h1, h2, h3, e⟩ | ⟨h1, h2, h3, e⟩ | ⟨h1, h2, e⟩
  · rw [e, scanStage_full h (s.setInbox l) h1]; rfl
  · rw [e, scanStage_draw h (s.setInbox l) h1 h2 h3]; rfl
  · rw [e, scanStage_over h (s.setInbox l) h1 h2 h3]; rfl
  · rw [e, scanStage_next h (s.setInbox l) h1 h2]; rfl

/-- No stage reads what the host will do next. -/
theorem stage_setInbox (s : State) (l : List HostEvent) : stage (s.setInbox l) = (stage s).setInbox l := by
  rcases s with ⟨g, gv, t, smp, orch, ph, inbox, sent⟩
  cases ph with
  | conCheck seed => simp only [stage, State.setInbox]; split <;> rfl
  | advCheck => cases gv <;> rfl
  | drvSample h st =>
    cases st <;> try rfl
    exact scanStage_setInbox h _ l
  | _ => rfl

theorem stage_inbox (s : State) : (stage s).inbox = s.inbox := by
  have h := stage_setInbox s s.inbox
  have : s.setInbox s.inbox = s := rfl
  rw [this] at h; rw [h]; rfl

theorem stage_idle {s : State} (h : s.ready = true) : stage s = s := by
  rw [State.ready_iff] at h; simp [stage, h]

/-- Everything a SAMPLE carried out in one step can end in. -/
theorem runHalf_cases (h : Half) (s : State) :
   ((sampleDraws Config.drawsPerStep s.t (cleared s.smp)).2.m < 32 ∧
     runHalf h s = ((s.setT (sampleDraws Config.drawsPerStep s.t (cleared s.smp)).1).setSmp (sampleDraws Config.drawsPerStep s.t (cleared s.smp)).2).setPh (.drvSample h .drawSquare)) ∨
   (¬ (sampleDraws Config.drawsPerStep s.t (cleared s.smp)).2.m < 32 ∧
     runHalf h s = finishHalf h ((s.setT (sampleDraws Config.drawsPerStep s.t (cleared s.smp)).1).setSmp (sampleDraws Config.drawsPerStep s.t (cleared s.smp)).2)) := by
  by_cases hm : (sampleDraws Config.drawsPerStep s.t (cleared s.smp)).2.m < 32
  · exact .inl ⟨hm, by simp only [runHalf]; rw [if_pos hm]⟩
  · exact .inr ⟨hm, by simp only [runHalf]; rw [if_neg hm]⟩

theorem runHalf_frame (h : Half) (s : State) : (runHalf h s).g = s.g ∧ (runHalf h s).gv = s.gv ∧ (runHalf h s).inbox = s.inbox ∧ (runHalf h s).sent = s.sent := by
  rcases runHalf_cases h s with ⟨_, e⟩ | ⟨_, e⟩ <;> rw [e] <;> exact ⟨rfl, rfl, rfl, rfl⟩

theorem runHalf_busy (h : Half) (s : State) : (runHalf h s).ph = .drvSample h .drawSquare ∨ (runHalf h s).ph = afterHalf h := by
  rcases runHalf_cases h s with ⟨_, e⟩ | ⟨_, e⟩ <;> rw [e]
  · exact .inl rfl
  · exact .inr rfl

/-- Everything a DERIVE_SEED on a ready engine can end in. -/
theorem derive_cases (index : U64) (s : State) :
   let s1 := runHalf .high (prepareSampling index s)
   (s1.ph = .drvSample .high .drawSquare ∧ derive index s = s1) ∨
   (s1.ph = .drvSample .low .clear ∧ (runHalf .low s1).ph = .drvSample .low .drawSquare ∧ derive index s = runHalf .low s1) ∨
   (s1.ph = .drvSample .low .clear ∧ (runHalf .low s1).ph = .drvPack ∧ derive index s = respondSeed (runHalf .low s1)) := by
  intro s1
  have hd : derive index s = afterHigh s1 := rfl
  rcases runHalf_busy .high (prepareSampling index s) with h | h
  · refine .inl ⟨h, ?_⟩
    rw [hd, afterHigh]; rw [if_neg]; intro hc; change s1.ph = _ at h; rw [h] at hc; cases hc
  · have h' : s1.ph = .drvSample .low .clear := h
    have : derive index s = if (runHalf .low s1).ph = .drvPack then respondSeed (runHalf .low s1) else runHalf .low s1 := by
      rw [hd, afterHigh, if_pos h']
    rcases runHalf_busy .low s1 with k | k
    · refine .inr (.inl ⟨h', k, ?_⟩); rw [this, if_neg]; intro hc; rw [k] at hc; cases hc
    · refine .inr (.inr ⟨h', k, ?_⟩); rw [this, if_pos]; exact k

theorem derive_frame (index : U64) (s : State) : (derive index s).g = s.g ∧ (derive index s).gv = s.gv ∧ (derive index s).inbox = s.inbox := by
  have h1 := runHalf_frame .high (prepareSampling index s)
  have h2 := runHalf_frame .low (runHalf .high (prepareSampling index s))
  have p : (prepareSampling index s).g = s.g ∧ (prepareSampling index s).gv = s.gv ∧ (prepareSampling index s).inbox = s.inbox := ⟨rfl, rfl, rfl⟩
  have hr : ∀ u, (respondSeed u).g = u.g ∧ (respondSeed u).gv = u.gv ∧ (respondSeed u).inbox = u.inbox := fun _ => ⟨rfl, rfl, rfl⟩
  rcases derive_cases index s with ⟨_, e⟩ | ⟨_, _, e⟩ | ⟨_, _, e⟩ <;> rw [e] <;> simp [h1, h2, p, hr]

/-- A DERIVE_SEED in one step either is still sampling, with no response, or has answered with PACK of its registers. -/
theorem derive_sent (index : U64) (s : State) :
   ((derive index s).ready = false ∧ (derive index s).sent = s.sent) ∨
   ((derive index s).ready = true ∧
     (derive index s).sent = ⟨.ok, pack (derive index s).orch.high (derive index s).orch.low⟩ :: s.sent) := by
  have h1 := (runHalf_frame .high (prepareSampling index s)).2.2.2
  have h2 := (runHalf_frame .low (runHalf .high (prepareSampling index s))).2.2.2
  have p : (prepareSampling index s).sent = s.sent := rfl
  rcases derive_cases index s with ⟨k, e⟩ | ⟨_, k, e⟩ | ⟨_, _, e⟩ <;> rw [e]
  · left; exact ⟨by simp [State.ready, k], by rw [h1, p]⟩
  · left; exact ⟨by simp [State.ready, k], by rw [h2, h1, p]⟩
  · right; refine ⟨rfl, ?_⟩; simp only [respondSeed, State.respond_sent, State.respond_orch]; rw [h2, h1, p]

end Sys2Proof.Machine
end

