-- ==== Sys2Proof/Laws/Context.lean ====
section
/-! SUPPORT. The context after many generator steps (41_generator.md R57, R60). -/

namespace Sys2Proof.Machine

theorem afterSteps_s (n) : ∀ C, (afterSteps n C).s = C.s := by
  induction n with
  | zero => intro C; rfl
  | succ n ih => intro C; simp only [afterSteps]; rw [ih, genStep_s]

theorem afterSteps_add (m n : Nat) : ∀ C, afterSteps (m+n) C = afterSteps n (afterSteps m C) := by
  induction m with
  | zero => intro C; simp [afterSteps]
  | succ m ih => intro C; rw [Nat.add_right_comm]; simp only [afterSteps]; exact ih _

theorem afterSteps_succ (n) (C) : afterSteps (n+1) C = (genStep (afterSteps n C)).1 := by
  rw [afterSteps_add]; rfl

theorem drawAt_succ (C n) : drawAt C (n+1) = drawAt (genStep C).1 n := rfl

theorem nibbleStream_zero (C) : nibbleStream C 0 = [] := rfl

theorem nibbleStream_succ (C n) : nibbleStream C (n+1) = windowsOf (drawAt C 0) ++ nibbleStream (genStep C).1 n := by
  simp only [nibbleStream, List.range_succ_eq_map, List.flatMap_cons, List.flatMap_map]; rfl

end Sys2Proof.Machine
end

