-- ==== Sys2Proof/Laws/Encoding.lean ====
section
/-! SUPPORT. What the fields of command and response words are (30_encoding.md R37, R38), for the encoding statements.
-/

namespace Sys2Proof.Machine

/-- `op` as a number. -/
theorem opField_toNat (c : CmdWord) : (opField c).toNat = c.toNat / 2^64 := by
  simp [opField, BitVec.extractLsb'_toNat, Nat.shiftRight_eq_div_pow]; omega

/-- `arg` is the low 64 bits of the word. -/
theorem argField_eq (c : CmdWord) : argField c = c.setWidth 64 := by
  apply BitVec.eq_of_toNat_eq; simp [argField, BitVec.extractLsb'_toNat]

/-- `op` has the value `k` when the word lies in the `k`-th quarter of the numbers. -/
theorem opField_eq_iff (c : CmdWord) (k : BitVec 2) : opField c = k ↔ c.toNat / 2^64 = k.toNat := by
  rw [← BitVec.toNat_inj, opField_toNat]

/-- A row's mask selects the words with that row's `op`. -/
theorem mask_eq_iff_opField (c : CmdWord) (k : BitVec 2) : c &&& 0x30000000000000000#66 = (k ++ 0#64 : CmdWord) ↔ opField c = k := by
  constructor
  · intro h
    have := congrArg (fun v => BitVec.extractLsb' 64 2 v) h
    have e : (BitVec.extractLsb' 64 2 (k ++ 0#64 : CmdWord)) = k := by
      apply BitVec.eq_of_toNat_eq; rw [BitVec.extractLsb'_toNat, BitVec.toNat_append]; simp [Nat.shiftRight_eq_div_pow, Nat.shiftLeft_eq]; omega
    simp only [e, BitVec.extractLsb'_and] at this
    rw [← this]; simp [opField];
    apply BitVec.eq_of_getLsbD_eq; intro i hi
    have : i = 0 ∨ i = 1 := by omega
    rcases this with rfl | rfl <;> simp
  · intro h; subst h
    apply BitVec.eq_of_getLsbD_eq; intro i hi
    simp only [BitVec.getLsbD_and, BitVec.getLsbD_append, opField, BitVec.getLsbD_extractLsb']
    have hm : (0x30000000000000000#66).getLsbD i = decide (64 ≤ i) := by
      have : ∀ i < 66, (0x30000000000000000#66).getLsbD i = decide (64 ≤ i) := by decide
      exact this i hi
    rw [hm]
    by_cases h : i < 64
    · simp [h]
    · have : i - 64 < 2 := by omega
      have h' : 64 ≤ i := by omega
      simp [h, h', this]

/-- The four values of `op`. -/
theorem op_cases (k : BitVec 2) : k = 0#2 ∨ k = 1#2 ∨ k = 2#2 ∨ k = 3#2 := by revert k; decide

/-- What `decode` answers in each of the four cases (R46). -/
theorem decode_of_op (c : CmdWord) :
   (opField c = 0#2 ∧ decode c = .illegal) ∨ (opField c = 1#2 ∧ decode c = .construct (c.setWidth 64)) ∨ (opField c = 2#2 ∧ decode c = .advance) ∨ (opField c = 3#2 ∧ decode c = .deriveSeed (c.setWidth 64)) := by
  rcases op_cases (opField c) with h | h | h | h <;> simp [decode, h, argField_eq]

/-- A command word as a number. -/
theorem commandWord_toNat (op : BitVec 2) (v : U64) : (commandWord op v).toNat = op.toNat * 2^64 + v.toNat := by
  simp only [commandWord, BitVec.toNat_append]
  rw [Nat.shiftLeft_eq, Nat.mul_comm, ← Nat.two_pow_add_eq_or_of_lt v.isLt]

theorem opField_commandWord (op : BitVec 2) (v : U64) : opField (commandWord op v) = op := by
  rw [opField_eq_iff, commandWord_toNat]; omega

theorem setWidth_commandWord (op : BitVec 2) (v : U64) : (commandWord op v).setWidth 64 = v := by
  apply BitVec.eq_of_toNat_eq; rw [BitVec.toNat_setWidth, commandWord_toNat]; omega

/-- A word is put together from its fields. -/
theorem commandWord_fields (c : CmdWord) : commandWord (opField c) (c.setWidth 64) = c := by
  apply BitVec.eq_of_toNat_eq; rw [commandWord_toNat, opField_toNat]; simp; omega

/-- A word is canonical when its ignored `arg` is 0. -/
theorem isCanonical_iff (c : CmdWord) : isCanonical c = true ↔ (opField c = 0#2 ∨ opField c = 2#2 → c.setWidth 64 = 0#64) := by
  have : c.extractLsb' 0 64 = c.setWidth 64 := argField_eq c
  simp only [isCanonical, opField, this]
  split <;> simp_all

end Sys2Proof.Machine
end

