-- ==== Sys2Proof/Laws/Sampler.lean ====
section
/-! SUPPORT. The sampler said through the list of nibbles it holds: `Collected r L` says that the registers `r` hold
the distinct nibbles `L`, and one lemma for a window, a scan, a draw and a SAMPLE says what becomes of `L`
(43_sampler.md R72 to R76). -/

namespace Sys2Proof.Machine

theorem firstSeenAfter_append (L a b : List U4) : firstSeenAfter L (a ++ b) = firstSeenAfter (firstSeenAfter L a) b := by
  induction a generalizing L with
  | nil => rfl
  | cons k ks ih => simp only [List.cons_append, firstSeenAfter]; split <;> exact ih _

theorem firstSeenAfter_cons (L k ks) : firstSeenAfter L (k :: ks) = firstSeenAfter (if k ∈ L then L else L ++ [k]) ks := by
  simp only [firstSeenAfter]; split <;> rfl

theorem firstSeenAfter_extends (L a : List U4) : ∃ M, firstSeenAfter L a = L ++ M := by
  induction a generalizing L with
  | nil => exact ⟨[], by simp [firstSeenAfter]⟩
  | cons k ks ih =>
    simp only [firstSeenAfter]; split
    · exact ih _
    · obtain ⟨M, h⟩ := ih (L ++ [k]); exact ⟨k :: M, by rw [h]; simp⟩

theorem firstSeenAfter_nodup (L a : List U4) (h : L.Nodup) : (firstSeenAfter L a).Nodup := by
  induction a generalizing L with
  | nil => exact h
  | cons k ks ih =>
    simp only [firstSeenAfter]; split
    · exact ih _ h
    · rename_i hk; apply ih; rw [List.nodup_append]; simp [h]; intro x hx hxk; subst hxk; exact hk hx

theorem mem_firstSeenAfter (L a : List U4) (k) : k ∈ firstSeenAfter L a ↔ k ∈ L ∨ k ∈ a := by
  induction a generalizing L with
  | nil => simp [firstSeenAfter]
  | cons x xs ih =>
    simp only [firstSeenAfter]; split
    · rw [ih]; simp; constructor
      · rintro (h | h) <;> simp [h]
      · rintro (h | rfl | h) <;> simp_all
    · rw [ih]; simp; constructor
      · rintro ((h | h) | h) <;> simp [h]
      · rintro (h | rfl | h) <;> simp_all

theorem firstSeenAfter_of_nodup (L ks : List U4) (hn : (L ++ ks).Nodup) : firstSeenAfter L ks = L ++ ks := by
  induction ks generalizing L with
  | nil => simp [firstSeenAfter]
  | cons k ks ih =>
    have hk : k ∉ L := by
      intro hk; rw [List.nodup_append] at hn; exact hn.2.2 k hk k (by simp) rfl
    simp only [firstSeenAfter, if_neg hk]
    rw [ih _ (by simpa using hn)]; simp

theorem firstSeenAfter_length_le (L ks : List U4) : (firstSeenAfter L ks).length ≤ L.length + ks.length := by
  induction ks generalizing L with
  | nil => simp [firstSeenAfter]
  | cons k ks ih => simp only [firstSeenAfter]; split
                    · have := ih L; simp; omega
                    · have := ih (L ++ [k]); simp at this ⊢; omega

theorem firstSeenAfter_length_lt (L ks : List U4) (hL : L.Nodup) (hn : ¬ (L ++ ks).Nodup) : (firstSeenAfter L ks).length < L.length + ks.length := by
  induction ks generalizing L with
  | nil => simp [hL] at hn
  | cons k ks ih =>
    simp only [firstSeenAfter]; split
    · have := firstSeenAfter_length_le L ks; simp; omega
    · rename_i hk
      have := ih (L ++ [k]) (by rw [List.nodup_append]; simp [hL]; intro x hx hxk; subst hxk; exact hk hx) (by simpa using hn)
      simp at this ⊢; omega

theorem take_eight_append (L M : List U4) (h : 8 ≤ L.length) : (L ++ M).take 8 = L.take 8 := by
  rw [List.take_append_of_le_length h]

/-- Nibbles as the digits of a number, the first the least significant. -/
def nibblesValue (L : List U4) : Nat := Nat.ofDigits 16 (L.map BitVec.toNat)

theorem nibblesValue_cons (k L) : nibblesValue (k :: L) = k.toNat + 16 * nibblesValue L := by simp [nibblesValue, Nat.ofDigits_cons]

theorem nibblesValue_lt (L) : nibblesValue L < 16 ^ L.length := by
  have := Nat.ofDigits_lt_base_pow_length (b := 16) (l := L.map BitVec.toNat) (by decide) (by simp; intro x _; have := x.isLt; omega)
  simpa [nibblesValue] using this

theorem placeNibbles_toNat (L : List U4) (h : L.length ≤ 8) : (placeNibbles L).toNat = nibblesValue L := by
  induction L with
  | nil => rfl
  | cons k L ih =>
    simp at h
    have hv := nibblesValue_lt L
    have : 16 ^ L.length ≤ 16 ^ 7 := Nat.pow_le_pow_right (by decide) (by omega)
    rw [nibblesValue_cons]; simp only [placeNibbles, BitVec.toNat_or, BitVec.toNat_shiftLeft, BitVec.toNat_setWidth, ih (by omega), Nat.shiftLeft_eq]
    have hk := k.isLt
    have e1 : k.toNat % 2^32 = k.toNat := by omega
    have e2 : nibblesValue L * 2^4 % 2^32 = 2^4 * nibblesValue L := by omega
    rw [e1, e2, Nat.or_comm, ← Nat.two_pow_add_eq_or_of_lt (by omega)]; omega

theorem nibblesValue_append (L : List U4) (k) : nibblesValue (L ++ [k]) = nibblesValue L + 16 ^ L.length * k.toNat := by
  simp [nibblesValue, Nat.ofDigits_append]

theorem nibbleAt_toNat (a : U32) (p) : (nibbleAt a p).toNat = a.toNat / 16 ^ p % 16 := by
  simp [nibbleAt, BitVec.extractLsb'_toNat, Nat.shiftRight_eq_div_pow, Nat.pow_mul]

theorem nibblesValue_digit (L : List U4) : ∀ p (h : p < L.length), nibblesValue L / 16 ^ p % 16 = L[p].toNat := by
  induction L with
  | nil => intro p h; simp at h
  | cons k L ih =>
    intro p h
    have hk := k.isLt
    rw [nibblesValue_cons]
    cases p with
    | zero => simp; omega
    | succ p =>
      have : (k.toNat + 16 * nibblesValue L) / 16 ^ (p+1) = nibblesValue L / 16^p := by
        rw [Nat.pow_succ', ← Nat.div_div_eq_div_mul]; congr 1; omega
      rw [this]; simp at h; simpa using ih p h

/-- A number below `16 ^ n` is the value of its `n` digits. -/
theorem digits_of_number (n : Nat) : ∀ a : Nat, a < 16 ^ n → Nat.ofDigits 16 ((List.range n).map (fun p => a / 16 ^ p % 16)) = a := by
  induction n with
  | zero => intro a h; simp at h; subst h; rfl
  | succ n ih =>
    intro a h
    rw [List.range_succ_eq_map]; simp only [List.map_cons, List.map_map, Nat.ofDigits_cons]
    have : ((fun p => a / 16 ^ p % 16) ∘ Nat.succ) = fun p => a / 16 / 16 ^ p % 16 := by
      funext p; simp [Nat.pow_succ, Nat.div_div_eq_div_mul, Nat.mul_comm]
    rw [this, ih (a/16) (by rw [Nat.pow_succ] at h; omega)]; simp; omega

/-- The sampler registers hold exactly the distinct nibbles `L`, in the order they were taken. -/
structure Collected (r : Sampler) (L : List U4) : Prop where
  nodup : L.Nodup
  len : L.length ≤ 8
  m : r.m.toNat = 4 * L.length
  a : r.a.toNat = nibblesValue L
  c : ∀ k, isUsed r.c k = true ↔ k ∈ L

theorem Collected.cleared (r : Sampler) : Collected (cleared r) [] := ⟨by simp, by simp, rfl, rfl, by intro k; simp [Machine.cleared, isUsed]⟩

theorem isUsed_markUsed (c : U16) (k v : U4) : isUsed (markUsed c k) v = (isUsed c v || v == k) := by
  simp only [isUsed, markUsed, BitVec.getLsbD_or, BitVec.getLsbD_shiftLeft]
  have hv := v.isLt; have hk := k.isLt
  congr 1
  have h1 : (1#16).getLsbD (v.toNat - k.toNat) = decide (v.toNat - k.toNat = 0) := by simp [BitVec.getLsbD_one]
  rw [h1]
  by_cases h : v = k
  · subst h; simp; omega
  · have : v.toNat ≠ k.toNat := fun h' => h (BitVec.eq_of_toNat_eq h')
    have hvk : (v == k) = false := by simp [h]
    rw [hvk]
    by_cases hlt : v.toNat < k.toNat
    · simp [hlt]
    · have : v.toNat - k.toNat ≠ 0 := by omega
      simp [this]

theorem takeWindow_used (r : Sampler) (h : isUsed r.c (nibble r.j r.i) = true) : takeWindow r = { r with k := nibble r.j r.i } := if_pos h

theorem takeWindow_new (r : Sampler) (h : ¬ isUsed r.c (nibble r.j r.i) = true) : takeWindow r = { r with k := nibble r.j r.i, c := markUsed r.c (nibble r.j r.i), a := r.a ||| ((nibble r.j r.i).setWidth 32 <<< r.m.toNat), m := r.m + 4 } := if_neg h

theorem takeWindow_j (r) : (takeWindow r).j = r.j := by unfold takeWindow; dsimp only; split <;> rfl

theorem takeWindow_i (r) : (takeWindow r).i = r.i := by unfold takeWindow; dsimp only; split <;> rfl

theorem takeWindow_k (r) : (takeWindow r).k = nibble r.j r.i := by unfold takeWindow; dsimp only; split <;> rfl

/-- One window. -/
theorem Collected.take {r L} (h : Collected r L) (hl : L.length < 8) :
    Collected (takeWindow r) (if nibble r.j r.i ∈ L then L else L ++ [nibble r.j r.i]) := by
  by_cases hk : nibble r.j r.i ∈ L
  · rw [if_pos hk, takeWindow_used r ((h.c _).2 hk)]; exact ⟨h.nodup, h.len, h.m, h.a, h.c⟩
  · rw [if_neg hk, takeWindow_new r (fun hc => hk ((h.c _).1 hc))]
    have hm := h.m
    refine ⟨?_, by simp; omega, ?_, ?_, ?_⟩
    · rw [List.nodup_append]; simp [h.nodup]; intro x hx hxk; subst hxk; exact hk hx
    · show (r.m + 4).toNat = _; simp; omega
    · show (r.a ||| _).toNat = _
      have hv := nibblesValue_lt L
      rw [nibblesValue_append]
      simp only [BitVec.toNat_or, BitVec.toNat_shiftLeft, BitVec.toNat_setWidth, h.a, h.m, Nat.shiftLeft_eq]
      have hp : 2 ^ (4 * L.length) = 16 ^ L.length := by rw [Nat.pow_mul]
      have hkk := (nibble r.j r.i).isLt
      have hb : 16 ^ L.length ≤ 16 ^ 7 := Nat.pow_le_pow_right (by decide) (by omega)
      have e1 : (nibble r.j r.i).toNat % 2^32 = (nibble r.j r.i).toNat := by omega
      have e2 : (nibble r.j r.i).toNat * 2 ^ (4 * L.length) % 2 ^ 32 = 2 ^ (4 * L.length) * (nibble r.j r.i).toNat := by
        rw [Nat.mul_comm]; apply Nat.mod_eq_of_lt; rw [hp]
        calc _ ≤ 16^7 * (nibble r.j r.i).toNat := Nat.mul_le_mul_right _ hb
          _ < 2^32 := by omega
      rw [e1, e2, Nat.or_comm, ← Nat.two_pow_add_eq_or_of_lt (by rw [hp]; exact hv), hp]; omega
    · intro v; show isUsed (markUsed _ _) v = true ↔ _; rw [isUsed_markUsed]; simp [h.c]

theorem count_eq_32_iff (m : U6) : m = 32 ↔ m.toNat = 32 := by rw [← BitVec.toNat_inj]; rfl

theorem count_lt_32_iff (m : U6) : m < 32 ↔ m.toNat < 32 := by rw [BitVec.lt_def]; rfl

theorem Collected.lt {r L} (h : Collected r L) : r.m < 32 ↔ L.length < 8 := by rw [count_lt_32_iff, h.m]; omega

/-- The window loop over one draw. -/
theorem Collected.scan (ws : List U5) : ∀ {r L}, Collected r L → L.length < 8 →
    Collected (scanWindows ws r) ((firstSeenAfter L (ws.map (nibble r.j))).take 8) ∧ (scanWindows ws r).j = r.j := by
  induction ws with
  | nil => intro r L h hl; simp only [scanWindows, List.map_nil, firstSeenAfter]; rw [List.take_of_length_le (by omega)]; exact ⟨h, trivial⟩
  | cons i ws ih =>
    intro r L h hl
    have h' : Collected ({ r with i := i }) L := ⟨h.nodup, h.len, h.m, h.a, h.c⟩
    have ht := h'.take hl
    simp only [List.map_cons, firstSeenAfter_cons]
    change Collected (takeWindow { r with i := i }) (if nibble r.j i ∈ L then L else L ++ [nibble r.j i]) at ht
    have hj : (takeWindow { r with i := i }).j = r.j := takeWindow_j _
    by_cases h32 : (takeWindow { r with i := i }).m = 32
    · have : scanWindows (i :: ws) r = takeWindow { r with i := i } := if_pos h32
      rw [this]
      rw [count_eq_32_iff, ht.m] at h32
      obtain ⟨M, hM⟩ := firstSeenAfter_extends (if nibble r.j i ∈ L then L else L ++ [nibble r.j i]) (ws.map (nibble r.j))
      rw [hM, take_eight_append _ _ (by omega), List.take_of_length_le (by omega)]
      exact ⟨ht, hj⟩
    · have : scanWindows (i :: ws) r = scanWindows ws (takeWindow { r with i := i }) := if_neg h32
      rw [this]
      have hl' : (if nibble r.j i ∈ L then L else L ++ [nibble r.j i]).length < 8 := by
        rw [count_eq_32_iff, ht.m] at h32; have := ht.len; omega
      have := ih ht hl'
      rw [hj] at this; exact this

theorem windowsOf_length (j) : (windowsOf j).length = 8 := rfl

/-- One draw. -/
theorem Collected.draw {r L} (C : Context) (h : Collected r L) (hl : L.length < 8) :
    Collected (drawAndScan C r).2 ((firstSeenAfter L (windowsOf (drawAt C 0))).take 8) := by
  have h' : Collected ({ r with j := (genStep C).2 }) L := ⟨h.nodup, h.len, h.m, h.a, h.c⟩
  exact (h'.scan windowPositions hl).1

theorem sampleDraws_done {n C r} (h : ¬ r.m < 32) : sampleDraws n C r = (C, r) := by
  cases n with
  | zero => rfl
  | succ n => exact if_neg h

theorem sampleDraws_more {n C r} (h : r.m < 32) : sampleDraws (n+1) C r = sampleDraws n (drawAndScan C r).1 (drawAndScan C r).2 := if_pos h

/-- At most `n` draws. -/
theorem Collected.sample (n : Nat) : ∀ {C r L}, Collected r L →
    Collected (sampleDraws n C r).2 ((firstSeenAfter L (nibbleStream C n)).take 8) := by
  induction n with
  | zero => intro C r L h; rw [nibbleStream_zero]; simp only [sampleDraws, firstSeenAfter]; rw [List.take_of_length_le h.len]; exact h
  | succ n ih =>
    intro C r L h
    rw [nibbleStream_succ, firstSeenAfter_append]
    by_cases hm : r.m < 32
    · rw [sampleDraws_more hm]
      have hd := h.draw C (h.lt.1 hm)
      have := ih (C := (drawAndScan C r).1) hd
      change Collected _ ((firstSeenAfter _ (nibbleStream (genStep C).1 n)).take 8) at this
      by_cases h8 : 8 ≤ (firstSeenAfter L (windowsOf (drawAt C 0))).length
      · obtain ⟨M, hM⟩ := firstSeenAfter_extends (firstSeenAfter L (windowsOf (drawAt C 0))) (nibbleStream (genStep C).1 n)
        obtain ⟨M', hM'⟩ := firstSeenAfter_extends ((firstSeenAfter L (windowsOf (drawAt C 0))).take 8) (nibbleStream (genStep C).1 n)
        rw [hM, take_eight_append _ _ h8]
        rw [hM', take_eight_append _ _ (by rw [List.length_take]; omega), List.take_take] at this
        exact this
      · rw [List.take_of_length_le (l := firstSeenAfter L (windowsOf (drawAt C 0))) (by omega)] at this; exact this
    · rw [sampleDraws_done hm]
      have hl : L.length = 8 := by have := h.lt.not.1 hm; have := h.len; omega
      obtain ⟨M, hM⟩ := firstSeenAfter_extends (firstSeenAfter L (windowsOf (drawAt C 0))) (nibbleStream (genStep C).1 n)
      obtain ⟨M', hM'⟩ := firstSeenAfter_extends L (windowsOf (drawAt C 0))
      rw [hM, hM', List.append_assoc, take_eight_append _ _ (by omega), List.take_of_length_le (by omega)]
      exact h

/-- Where the context stands after at most `n` draws, `d` of which are made. -/
theorem Collected.ctx (n : Nat) : ∀ {C r L d}, Collected r L → (∀ e < d, (firstSeenAfter L (nibbleStream C e)).length < 8) → d ≤ n →
    (d = n ∨ 8 ≤ (firstSeenAfter L (nibbleStream C d)).length) → (sampleDraws n C r).1 = afterSteps d C := by
  induction n with
  | zero => intro C r L d h _ hd _; have : d = 0 := by omega
            subst this; rfl
  | succ n ih =>
    intro C r L d h he hd hf
    cases d with
    | zero =>
      have : 8 ≤ L.length := by
        rcases hf with h | h
        · omega
        · exact h
      rw [sampleDraws_done (by rw [h.lt]; omega)]; rfl
    | succ d =>
      have h0 : L.length < 8 := he 0 (by omega)
      rw [sampleDraws_more (h.lt.2 h0)]
      have hdr := h.draw C h0
      simp only [afterSteps]
      by_cases h8 : 8 ≤ (firstSeenAfter L (windowsOf (drawAt C 0))).length
      · -- filled in this draw
        have hd0 : d = 0 := by
          by_contra hd0
          have := he 1 (by omega)
          rw [nibbleStream_succ, nibbleStream_zero, List.append_nil] at this; omega
        subst hd0
        rw [sampleDraws_done (by rw [hdr.lt, List.length_take]; omega)]; rfl
      · rw [List.take_of_length_le (by omega)] at hdr
        refine ih (C := (drawAndScan C r).1) hdr ?_ (by omega) ?_
        · intro e hed
          have := he (e+1) (by omega)
          rw [nibbleStream_succ, firstSeenAfter_append] at this; exact this
        · rcases hf with h | h
          · left; omega
          · right; rw [nibbleStream_succ, firstSeenAfter_append] at h; exact h

theorem Collected.takenNibbles_eq {r L} (h : Collected r L) : takenNibbles r = L := by
  apply List.ext_getElem
  · simp [takenNibbles, h.m]
  · intro p h1 h2
    simp only [takenNibbles, List.getElem_map, List.getElem_range]
    apply BitVec.eq_of_toNat_eq; rw [nibbleAt_toNat, h.a, nibblesValue_digit L p h2]

theorem usedCount_eq_length {c : U16} {L : List U4} (hn : L.Nodup) (h : ∀ k, isUsed c k = true ↔ k ∈ L) : usedCount c = L.length := by
  have hp : List.Perm ((List.range 16).filter (fun b => c.getLsbD b)) (L.map BitVec.toNat) := by
    rw [List.perm_ext_iff_of_nodup]
    · intro b
      simp only [List.mem_filter, List.mem_range, List.mem_map]
      constructor
      · rintro ⟨hb, hc⟩
        refine ⟨BitVec.ofNat 4 b, (h _).1 ?_, ?_⟩ <;> simp [isUsed]
        · rw [Nat.mod_eq_of_lt hb]; exact hc
        · exact hb
      · rintro ⟨k, hk, rfl⟩; exact ⟨k.isLt, (h k).2 hk⟩
    · exact List.Nodup.filter _ List.nodup_range
    · exact hn.map (fun a b hab => BitVec.eq_of_toNat_eq hab)
  have := hp.length_eq; simpa [usedCount] using this

/-- Collected registers meet the invariants of R76, ... -/
theorem Collected.sound {r L} (h : Collected r L) : r.Sound := by
  have e := Collected.takenNibbles_eq h
  have hl := h.len
  refine ⟨by rw [h.m]; omega, ?_, ?_, by rw [e]; exact h.nodup, by rw [e]; exact h.c⟩
  · rw [usedCount_eq_length h.nodup h.c, h.m]; omega
  · apply BitVec.eq_of_toNat_eq; simp only [BitVec.toNat_ushiftRight, h.a, h.m, Nat.shiftRight_eq_div_pow]
    rw [Nat.pow_mul, Nat.div_eq_of_lt (nibblesValue_lt L)]; rfl

/-- ... and registers that meet them are collected. -/
theorem Sampler.Sound.collected {r : Sampler} (h : r.Sound) : Collected r (takenNibbles r) := by
  have hc := h.count
  refine ⟨h.distinct, by simp [takenNibbles]; omega, by simp [takenNibbles]; omega, ?_, h.marked⟩
  have hlt : r.a.toNat < 16 ^ (r.m.toNat / 4) := by
    have h2 := congrArg BitVec.toNat h.above
    simp only [BitVec.toNat_ushiftRight, Nat.shiftRight_eq_div_pow] at h2
    have e : r.m.toNat = 4 * (r.m.toNat / 4) := by omega
    have h3 : r.a.toNat / 2 ^ r.m.toNat = 0 := h2
    rw [Nat.div_eq_zero_iff] at h3
    have hp : 2 ^ r.m.toNat = 16 ^ (r.m.toNat / 4) := by conv_lhs => rw [e, Nat.pow_mul]
    rw [hp] at h3
    rcases h3 with h3 | h3
    · have : 0 < 16 ^ (r.m.toNat / 4) := Nat.pow_pos (by decide)
      omega
    · exact h3
  rw [nibblesValue, takenNibbles, List.map_map]
  have : BitVec.toNat ∘ nibbleAt r.a = fun p => r.a.toNat / 16 ^ p % 16 := by funext p; exact nibbleAt_toNat _ _
  rw [this, digits_of_number _ _ hlt]

theorem distinctNibbles_iff (a : U32) : distinctNibbles a ↔ (windowsOf a).Nodup := by
  have : (List.range 8).map (nibbleAt a) = windowsOf a := by
    simp [windowsOf, windowPositions, List.range_succ, nibbleAt, nibble]
  rw [distinctNibbles, this]

theorem Collected.result_distinct {r L} (h : Collected r L) (h8 : L.length = 8) : distinctNibbles r.a := by
  have e := Collected.takenNibbles_eq h
  have : r.m.toNat / 4 = 8 := by rw [h.m]; omega
  rw [takenNibbles, this] at e
  rw [distinctNibbles, e]; exact h.nodup

theorem fillsWithin_iff (C n r) : fillsWithin C n ↔ ¬ (sampleDraws n C (cleared r)).2.m < 32 := by
  have h := (Collected.cleared r).sample n (C := C)
  rw [h.lt, List.length_take]; unfold fillsWithin firstSeen; omega

end Sys2Proof.Machine
end

