-- ==== Sys2Proof/Laws/Orchestrator.lean ====
section
/-! SUPPORT. One lemma per orchestrator register per stage, the values as natural numbers (42_seed_deriver.md R64 to
R67), and where the preparation of a DERIVE_SEED leaves T. -/

namespace Sys2Proof.Machine

@[simp] theorem splitIndex_index (o : Orchestrator) : (splitIndex o).index = o.index := by simp only [splitIndex]
@[simp] theorem splitIndex_bucket (o : Orchestrator) : (splitIndex o).bucket = divide o.index Config.bucketWidth := by simp only [splitIndex]
@[simp] theorem splitIndex_offset (o : Orchestrator) : (splitIndex o).offset = remainder o.index Config.bucketWidth := by simp only [splitIndex]
@[simp] theorem splitIndex_ti (o : Orchestrator) : (splitIndex o).ti = o.ti := by simp only [splitIndex]
@[simp] theorem splitIndex_tseed (o : Orchestrator) : (splitIndex o).tseed = o.tseed := by simp only [splitIndex]
@[simp] theorem splitIndex_bucket2 (o : Orchestrator) : (splitIndex o).bucket2 = o.bucket2 := by simp only [splitIndex]
@[simp] theorem splitIndex_initial (o : Orchestrator) : (splitIndex o).initial = o.initial := by simp only [splitIndex]
@[simp] theorem splitIndex_high (o : Orchestrator) : (splitIndex o).high = o.high := by simp only [splitIndex]
@[simp] theorem splitIndex_low (o : Orchestrator) : (splitIndex o).low = o.low := by simp only [splitIndex]
@[simp] theorem selectEntry_index (o : Orchestrator) : (selectEntry o).index = o.index := by simp only [selectEntry]
@[simp] theorem selectEntry_bucket (o : Orchestrator) : (selectEntry o).bucket = o.bucket := by simp only [selectEntry]
@[simp] theorem selectEntry_offset (o : Orchestrator) : (selectEntry o).offset = o.offset := by simp only [selectEntry]
@[simp] theorem selectEntry_ti (o : Orchestrator) : (selectEntry o).ti = BitVec.ofNat 5 (tableIndex o.bucket).val := by simp only [selectEntry]
@[simp] theorem selectEntry_tseed (o : Orchestrator) : (selectEntry o).tseed = lut (tableIndex o.bucket) := by simp only [selectEntry]
@[simp] theorem selectEntry_bucket2 (o : Orchestrator) : (selectEntry o).bucket2 = o.bucket2 := by simp only [selectEntry]
@[simp] theorem selectEntry_initial (o : Orchestrator) : (selectEntry o).initial = o.initial := by simp only [selectEntry]
@[simp] theorem selectEntry_high (o : Orchestrator) : (selectEntry o).high = o.high := by simp only [selectEntry]
@[simp] theorem selectEntry_low (o : Orchestrator) : (selectEntry o).low = o.low := by simp only [selectEntry]
@[simp] theorem countCycles_index (o : Orchestrator) : (countCycles o).index = o.index := by simp only [countCycles]
@[simp] theorem countCycles_bucket (o : Orchestrator) : (countCycles o).bucket = o.bucket := by simp only [countCycles]
@[simp] theorem countCycles_offset (o : Orchestrator) : (countCycles o).offset = o.offset := by simp only [countCycles]
@[simp] theorem countCycles_ti (o : Orchestrator) : (countCycles o).ti = o.ti := by simp only [countCycles]
@[simp] theorem countCycles_tseed (o : Orchestrator) : (countCycles o).tseed = o.tseed := by simp only [countCycles]
@[simp] theorem countCycles_bucket2 (o : Orchestrator) : (countCycles o).bucket2 = divide o.bucket Config.tableLen := by simp only [countCycles]
@[simp] theorem countCycles_initial (o : Orchestrator) : (countCycles o).initial = o.initial := by simp only [countCycles]
@[simp] theorem countCycles_high (o : Orchestrator) : (countCycles o).high = o.high := by simp only [countCycles]
@[simp] theorem countCycles_low (o : Orchestrator) : (countCycles o).low = o.low := by simp only [countCycles]
@[simp] theorem startValue_index (o : Orchestrator) : (startValue o).index = o.index := by simp only [startValue]
@[simp] theorem startValue_bucket (o : Orchestrator) : (startValue o).bucket = o.bucket := by simp only [startValue]
@[simp] theorem startValue_offset (o : Orchestrator) : (startValue o).offset = o.offset := by simp only [startValue]
@[simp] theorem startValue_ti (o : Orchestrator) : (startValue o).ti = o.ti := by simp only [startValue]
@[simp] theorem startValue_tseed (o : Orchestrator) : (startValue o).tseed = o.tseed := by simp only [startValue]
@[simp] theorem startValue_bucket2 (o : Orchestrator) : (startValue o).bucket2 = o.bucket2 := by simp only [startValue]
@[simp] theorem startValue_initial (o : Orchestrator) : (startValue o).initial = add64 (mul64 o.offset o.tseed) (mul64 Config.bucketWidth (mul64 o.bucket2 o.tseed)) := by simp only [startValue]
@[simp] theorem startValue_high (o : Orchestrator) : (startValue o).high = o.high := by simp only [startValue]
@[simp] theorem startValue_low (o : Orchestrator) : (startValue o).low = o.low := by simp only [startValue]

theorem bucketWidth_toNat : Config.bucketWidth.toNat = 100000000 := by decide

theorem tableLen_toNat : Config.tableLen.toNat = 30 := by decide

theorem tableIndex_val (b : U64) : (tableIndex b).val = b.toNat % 30 := by
  simp only [tableIndex, remainder, BitVec.toNat_umod, tableLen_toNat]; omega

/-- R64. -/
theorem splitIndex_bucket_toNat (o : Orchestrator) : (splitIndex o).bucket.toNat = o.index.toNat / 100000000 := by
  simp only [splitIndex, divide, BitVec.toNat_udiv, bucketWidth_toNat]

/-- R64. -/
theorem splitIndex_offset_toNat (o : Orchestrator) : (splitIndex o).offset.toNat = o.index.toNat % 100000000 := by
  simp only [splitIndex, remainder, BitVec.toNat_umod, bucketWidth_toNat]

/-- R66. -/
theorem countCycles_bucket2_toNat (o : Orchestrator) : (countCycles o).bucket2.toNat = o.bucket.toNat / 30 := by
  simp only [countCycles, divide, BitVec.toNat_udiv, tableLen_toNat]

theorem tableIndex_splitIndex (o : Orchestrator) : tableIndex (splitIndex o).bucket = entryOf o.index := by
  apply Fin.ext; rw [tableIndex_val, splitIndex_bucket_toNat]; simp only [entryOf]

/-- R65. -/
theorem selectEntry_ti_toNat (o : Orchestrator) : (selectEntry o).ti.toNat = o.bucket.toNat % 30 := by
  simp only [selectEntry, tableIndex_val, BitVec.toNat_ofNat]; omega

theorem position_word (f b : U64) :  BitVec.ofNat 64 (f.toNat + 100000000 * b.toNat) = f + Config.bucketWidth * b := by
    apply BitVec.eq_of_toNat_eq
    rw [BitVec.toNat_ofNat, BitVec.toNat_add, BitVec.toNat_mul, bucketWidth_toNat]
    rw [Nat.add_mod_mod]

/-- R67, the equivalent form. -/
theorem startValue_initial_position (o : Orchestrator) : (startValue o).initial = o.tseed * BitVec.ofNat 64 (o.offset.toNat + 100000000 * o.bucket2.toNat) := by
  rw [position_word]
  rw [startValue_initial]; unfold add64 mul64
  rw [BitVec.mul_add, BitVec.mul_comm o.offset o.tseed, BitVec.mul_comm o.bucket2 o.tseed, ← BitVec.mul_assoc, BitVec.mul_comm Config.bucketWidth o.tseed, BitVec.mul_assoc]

/-- R64 to R68 together. -/
theorem loadedContext_eq_startContext (o : Orchestrator) : loadedContext (startValue (countCycles (selectEntry (splitIndex o)))) = startContext o.index := by
  have hi := startValue_initial_position (countCycles (selectEntry (splitIndex o)))
  rw [countCycles_tseed, selectEntry_tseed, tableIndex_splitIndex, countCycles_offset, selectEntry_offset, countCycles_bucket2_toNat, selectEntry_bucket, splitIndex_offset_toNat, splitIndex_bucket_toNat] at hi
  rw [loadedContext, hi, startValue_tseed, countCycles_tseed, selectEntry_tseed, tableIndex_splitIndex, startContext, positionOf, lut]

theorem prepareSampling_t (index s) : (prepareSampling index s).t = startContext index := loadedContext_eq_startContext _

theorem prepareSampling_orch (index : U64) (s : State) : (prepareSampling index s).orch = startValue (countCycles (selectEntry (splitIndex { s.orch with index := index }))) := rfl

/-- Every entry is odd (U4). -/
theorem table_odd (e) : isOdd (Config.table e) = true := by
  unfold Config.table; split
  · decide
  · rw [isOdd, BitVec.getLsbD_append]; simp

theorem respondSeed_orch (s : State) : (respondSeed s).orch = s.orch := rfl

theorem respondSeed_ph (s : State) : (respondSeed s).ph = .idle := rfl

theorem respondSeed_t (s : State) : (respondSeed s).t = s.t := rfl

theorem respondSeed_sent (s : State) : (respondSeed s).sent = ⟨.ok, pack s.orch.high s.orch.low⟩ :: s.sent := rfl

end Sys2Proof.Machine
end

