-- ==== Sys2Proof/Laws/PerInstr.lean ====
section
/-! SUPPORT. Statements made of every command, one lemma per constructor. -/

namespace Sys2Proof.Laws.Canonical

/-- The word `encode` writes for a command is canonical, lies in the quarter of the words that its row's `op` selects,
and carries its operand, or 0 where it has none (30_encoding.md R37, R46). -/
def Statement (i : Instr) : Prop :=
  isCanonical (encode i) = true ∧
    match i with
    | .illegal => opField (encode i) = 0b00#2 ∧ argField (encode i) = 0#64
    | .construct seed => opField (encode i) = 0b01#2 ∧ argField (encode i) = seed
    | .advance => opField (encode i) = 0b10#2 ∧ argField (encode i) = 0#64
    | .deriveSeed index => opField (encode i) = 0b11#2 ∧ argField (encode i) = index

theorem illegal : Statement .illegal := by unfold Statement; decide

theorem construct (seed : U64) : Statement (.construct seed) := by
  simp [Statement, Machine.isCanonical_iff, encode, Machine.opField_commandWord, Machine.argField_eq,
    Machine.setWidth_commandWord]

theorem advance : Statement .advance := by unfold Statement; decide

theorem deriveSeed (index : U64) : Statement (.deriveSeed index) := by
  simp [Statement, Machine.isCanonical_iff, encode, Machine.opField_commandWord, Machine.argField_eq,
    Machine.setWidth_commandWord]

end Sys2Proof.Laws.Canonical
end

