-- ==== Sys2Proof/Laws/Run.lean ====
section
/-! SUPPORT. Runs of several steps. -/

namespace Sys2Proof.Machine

theorem runFor_zero (s : State) : runFor 0 s = .next s := rfl

theorem runFor_succ {n : Nat} {s t : State} (h : step s = .next t) : runFor (n+1) s = runFor n t := by
  have h' : Sys2Proof.core.step s = .next t := h
  simp only [runFor, Host.Core.run, h']; rfl

/-- With nothing presented, a step is a stage. -/
theorem step_nil {s : State} (h : s.inbox = []) : step s = .next (stage s) := by simp only [step, h]

end Sys2Proof.Machine
end

