-- ==== Sys2Proof/Tests/Slice0.lean ====
section
/-! SUPPORT. The model's own tests. Expected values are those of 95_test_vectors.md (named beside each test) or
written out from 30_encoding.md; the witnesses show, for every statement with hypotheses, values that meet them. -/

namespace Sys2Proof.Tests
open Sys2Proof Sys2Proof.Machine

/-! ### Small states -/

/-- A ready engine: the state after reset. -/
def freshState : State := State.reset

/-- A ready engine holding the generator of V2.5 before its first ADVANCE. -/
def builtState : State := (State.reset.setG ⟨0xb5ad4eceda1ce2a9, 0, 0⟩).setGv true

/-- An engine at the stage `ph`, the generator built. -/
def stateAt (ph : Phase) : State := builtState.setPh ph

/-- An engine at the stage `ph` with these orchestrator registers. -/
def stateWith (ph : Phase) (o : Orchestrator) : State := (stateAt ph).setOrch o

/-- Orchestrator registers all 0 but the index. -/
def orchAt (index : U64) : Orchestrator := ⟨index, 0, 0, 0, 0, 0, 0, 0, 0⟩

/-- The state of a next outcome, or the reset state. -/
def after : Host.Outcome State Fault Refusal → State
  | .next s => s
  | .fault _ => State.reset
  | .refused _ => State.reset

/-- The outcome is the next state `s`, as a Bool. -/
def isNext (o : Host.Outcome State Fault Refusal) (s : State) : Bool :=
  match o with
  | .next t => decide (t = s)
  | .fault _ => false
  | .refused _ => false

theorem eq_next_of_isNext {o : Host.Outcome State Fault Refusal} {s : State} (h : isNext o s = true) : o = .next s := by
  cases o <;> simp_all [isNext]

/-! ### Well-formedness: each check refuses an ill-formed term -/

theorem test_isCommandWord_refuses_bit_66 :
    isCommandWord (2 ^ 66) = false ∧ isCommandWord (2 ^ 66 - 1) = true := by decide

theorem test_isCanonical_refuses_an_argument_of_advance :
    isCanonical 0x2ffffffffffffffff#66 = false ∧ isCanonical 0x20000000000000000#66 = true := by decide

theorem test_isCanonical_refuses_an_argument_of_the_reserved_code :
    isCanonical 0x00000000000000005#66 = false ∧ isCanonical 0x00000000000000000#66 = true := by decide

theorem test_every_command_is_wellFormed :
    Instr.illegal.wellFormed = true ∧ (Instr.construct 0).wellFormed = true ∧
    Instr.advance.wellFormed = true ∧ (Instr.deriveSeed 0xffffffffffffffff).wellFormed = true := by decide

theorem test_decodeNumber_refuses_by_name :
    decodeNumber (2 ^ 66) = .error .widerThanACommandWord := by decide

/-! ### Decoding: words written out as `op` (2 bits) then `arg` (64 bits), V3.1 -/

/-- `ILLEGAL 0x5`: op 00. -/
theorem test_decode_illegal : decode (0b00#2 ++ 0x0000000000000005#64) = .illegal := by decide

/-- `CONSTRUCT 0xb5ad4eceda1ce2a9`: op 01. -/
theorem test_decode_construct :
    decode 0x1b5ad4eceda1ce2a9#66 = .construct 0xb5ad4eceda1ce2a9#64 := by decide

/-- `ADVANCE`: op 10. -/
theorem test_decode_advance : decode 0x20000000000000000#66 = .advance := by decide

/-- `DERIVE 3000000000`: op 11. -/
theorem test_decode_deriveSeed : decode 0x300000000b2d05e00#66 = .deriveSeed 3000000000#64 := by decide

/-- The numbering of the opcode table: a word of 66 bits, and one with fewer bits given. -/
theorem test_decodeTableWord :
    decodeTableWord 66 0x20000000000000000 = some .advance ∧
    decodeTableWord 72 0x30000000000000009 = some (.deriveSeed 9#64) ∧ decodeTableWord 8 5 = some .illegal := by decide

/-- V3.2: `NOT_CONSTRUCTED` and `OK 0x8b5ad4ceb9c1fe73` as response words. -/
theorem test_responseWord :
    responseWord ⟨.notConstructed, 0⟩ = 0x20000000000000000#66 ∧
    responseWord ⟨.ok, 0x8b5ad4ceb9c1fe73⟩ = 0x08b5ad4ceb9c1fe73#66 := by decide

/-! ### Units and the sampler -/

/-- V2.4, the first row: an even seed. -/
theorem test_genStep_even_seed : genStep ⟨2, 5, 7⟩ = (⟨2, 0x0000002200000000, 9⟩, 0) := by decide

/-- V4.3: the eight windows of a draw. -/
theorem test_windows : windowsOf 0xce31fe73 = [0x3, 0x7, 0xe, 0xf, 0x1, 0x3, 0xe, 0xc] := by decide

/-- Section 6, the second draw of the fourth row: a draw that takes nothing. -/
theorem test_scan_takes_nothing :
    let r := scanWindows windowPositions { cleared ⟨0, 0, 0, 0, 0, 0⟩ with j := 0x11111110 }
    let r' := scanWindows windowPositions { r with j := 0x11111110 }
    r'.a = 0x10 ∧ r'.c = 0x0003 ∧ r'.m = 8 := by decide +kernel

/-- V5.1, the low half: a partial draw, then a second draw of which two windows are taken and five not examined. -/
theorem test_scan_stops_early :
    let r := scanWindows windowPositions { cleared ⟨0, 0, 0, 0, 0, 0⟩ with j := 0xce31fe73 }
    let r' := scanWindows windowPositions { r with j := 0xfe0e5b9c }
    r.m = 24 ∧ r.c = 0xd08a ∧ r'.a = 0xb9c1fe73 ∧ r'.c = 0xda8a ∧ r'.i = 8 := by decide +kernel

/-- V5.7: an index whose second SAMPLE makes three draws. -/
theorem test_three_draw_sample :
    drawAt (startContext 35) 3 = 0xbe79d516 ∧ (sampleDraws 1 (startContext 35) ⟨0, 0, 0, 0, 0, 0⟩).2.a = 0x47a806b5 := by
  decide +kernel

/-! ### One step of each command -/

/-- P2 line 6. -/
theorem test_step_illegal :
    (after (step (builtState.withFetchWord 66 0x00000000000000005))).sent = [⟨.illegalCmd, 0⟩] := by decide

/-- P1 line 4. -/
theorem test_step_construct :
    (after (step (freshState.withFetchWord 66 0x1b5ad4eceda1ce2a9))).g = ⟨0xb5ad4eceda1ce2a9, 0, 0⟩ ∧
    (after (step (freshState.withFetchWord 66 0x1b5ad4eceda1ce2a9))).gv = true := by decide

/-- P1 line 2. -/
theorem test_step_construct_even :
    (after (step (freshState.withFetchWord 66 0x1b5ad4eceda1ce2a8))).sent = [⟨.invalidSeed, 0⟩] ∧
    (after (step (freshState.withFetchWord 66 0x1b5ad4eceda1ce2a8))).gv = false := by decide

/-- P1 line 5. -/
theorem test_step_advance :
    (after (step (builtState.withFetchWord 66 0x20000000000000000))).g =
      ⟨0xb5ad4eceda1ce2a9, 0xda1ce2a9b5ad4ece, 0xb5ad4eceda1ce2a9⟩ ∧
    (after (step (builtState.withFetchWord 66 0x20000000000000000))).sent = [⟨.ok, 0xb5ad4ece⟩] := by decide

/-- P1 line 1. -/
theorem test_step_advance_refused :
    (after (step (freshState.withFetchWord 66 0x20000000000000000))).sent = [⟨.notConstructed, 0⟩] := by decide

/-- V5.2, and its final T. -/
theorem test_step_deriveSeed :
    (after (step (freshState.withFetchWord 66 0x30000000000000001))).sent = [⟨.ok, 0x64d098b5c4f26d37⟩] ∧
    (after (step (freshState.withFetchWord 66 0x30000000000000001))).t.x = 0x4b1de7a4f6215c8c ∧
    (after (step (freshState.withFetchWord 66 0x30000000000000001))).t.w = 0xb8c62808d68a05d3 := by decide +kernel

/-- V5.10, `DERIVE 18446744073099999999`: the largest bucket with `ti = 0`. -/
theorem test_exec_deriveSeed_large_index :
    (after (exec (.deriveSeed 18446744073099999999) freshState)).sent = [⟨.ok, 0x3845f2a1281496e1⟩] := by
  decide +kernel

/-! ### Witnesses: values that meet the hypotheses of each statement that has some, clause by clause -/

theorem witness_DecodeEncodeRoundTrip :
    (0x0ffffffffffffffff#66 : CmdWord).toNat / 2 ^ 64 = 0 ∧ (0x1ffffffffffffffff#66 : CmdWord).toNat / 2 ^ 64 = 1 ∧
    (0x2ffffffffffffffff#66 : CmdWord).toNat / 2 ^ 64 = 2 ∧ (0x3ffffffffffffffff#66 : CmdWord).toNat / 2 ^ 64 = 3 ∧
    decode 0x20000000000000000#66 = decode 0x2ffffffffffffffff#66 ∧
    (Instr.construct 0xffffffffffffffff).wellFormed = true ∧ Instr.construct 0xffffffffffffffff ≠ .illegal ∧
    isCanonical 0x3ffffffffffffffff#66 = true ∧ (0x3ffffffffffffffff#66 : CmdWord).toNat / 2 ^ 64 ≠ 0 := by decide

theorem witness_ReservedSpellingRoundTrip :
    isCanonical 0#66 = true ∧ decode 0#66 = .illegal := by decide

theorem witness_TableWordsDecode :
    (2 ^ 66 - 1 < 2 ^ 66 ∧ 2 ^ 66 - 1 < 2 ^ 66) ∧ (0 < 2 ^ 0 ∧ 0 < 2 ^ 66) ∧ (2 ^ 66 < 2 ^ 72 ∧ 2 ^ 66 ≤ 2 ^ 66) := by
  decide

theorem witness_SquarerTruncatesTheSquare : (0x0000000100000000 : U64).toNat % 2 ^ 32 = 0 := by decide

theorem witness_DividersAreExact :
    ((100000000 : U64) = 100000000 ∨ (100000000 : U64) = 30) ∧ ((30 : U64) = 100000000 ∨ (30 : U64) = 30) ∧
    (30 : U64).toNat * 6148914691 ≤ (184467440737 : U64).toNat := by decide

theorem witness_NibbleIsAWindow : (0 : U5) ∈ windowPositions ∧ (28 : U5) ∈ windowPositions := by decide

theorem witness_PackerForcesBitZero :
    (0xb9c1fe73 : U32).toNat % 2 = 1 ∧ (0x70d261c8 : U32).toNat % 2 = 0 := by decide

theorem witness_ClosedFormsOfTheStep :
    (isOdd (1 : U64) = true ∧ 0 < 2 ^ 64 ∧ 2 ^ 64 - 1 < 2 ^ 64) ∧
    (afterSteps 3 ⟨1, 0, 0⟩).w = (afterSteps 3 ⟨1, 0, 0⟩).w ∧ isOdd (0xfffffffffffffffe : U64) = false ∧
    2 ^ 32 - 1 < 2 ^ 32 ∧ 0 < 2 ^ 32 - 1 := by decide

theorem witness_ConstructValidatesParity : freshState.ready = true ∧ builtState.ready = true := by decide

theorem witness_AdvanceStepsTheGenerator :
    (builtState.ready = true ∧ builtState.gv = true) ∧ (freshState.ready = true ∧ freshState.gv = false) ∧
    (isOdd (1 : U64) = true ∧ exec (.construct 1) freshState = .next (initGenerator 1 freshState)) ∧
    (isOdd builtState.g.s = true ∧ builtState.g.x = 0 ∧ (genStep builtState.g).1.w ≠ 0) ∧
    (0x2ffffffffffffffff#66 : CmdWord).toNat / 2 ^ 64 = 2 :=
  ⟨by decide, by decide, ⟨by decide, eq_next_of_isNext (by decide)⟩, by decide, by decide⟩

theorem witness_ReservedCommandIsAnswered :
    (0x0ffffffffffffffff#66 : CmdWord).toNat < 2 ^ 64 ∧ (0#66 : CmdWord).toNat < 2 ^ 64 ∧ builtState.ready = true := by
  decide

/-- V5.2: both SAMPLE runs of `DERIVE 1` make two draws. -/
theorem witness_bothFill : bothFill 1 2 2 := by
  unfold bothFill drawsToFill fillsWithin; decide +kernel

theorem witness_OutputSequenceIsTheRecurrence :
    freshState.ready = true ∧ isOdd (0xb5ad4eceda1ce2a9 : U64) = true ∧
    exec (.construct 0xb5ad4eceda1ce2a9) freshState = .next (initGenerator 0xb5ad4eceda1ce2a9 freshState) ∧
    ∀ i ∈ [Instr.advance, .deriveSeed 1, .construct 2, .illegal, .advance], keepsGenerator i := by
  refine ⟨by decide, by decide, eq_next_of_isNext (by decide), ?_⟩
  intro i hi
  simp only [List.mem_cons, List.not_mem_nil, or_false] at hi
  rcases hi with rfl | rfl | rfl | rfl | rfl
  · trivial
  · exact ⟨2, 2, witness_bothFill, by decide, by decide⟩
  · show isOdd 2 = false; decide
  · trivial
  · trivial

theorem witness_GeneratorValidIsSetByConstructOnly :
    (step (freshState.presentWord 0x10000000000000001#66) = .next (initGenerator 1 freshState) ∧
      freshState.gv = false ∧ (initGenerator 1 freshState).gv = true) ∧
    (step (freshState.setPh (.conInit 1)) = .next (initGenerator 1 freshState)) ∧
    (step (builtState.setInbox [.reset]) = .next freshState ∧ builtState.gv = true ∧ freshState.gv = false) ∧
    freshState.ready = true ∧ isOdd (1 : U64) = true :=
  ⟨⟨eq_next_of_isNext (by decide), by decide⟩, eq_next_of_isNext (by decide),
    ⟨eq_next_of_isNext (by decide), by decide⟩, by decide⟩

theorem witness_SeedIsFixedForTheLifetime :
    step (freshState.presentWord 0x10000000000000001#66) = .next (initGenerator 1 freshState) ∧
    (initGenerator 1 freshState).g.s ≠ freshState.g.s ∧
    step (builtState.setInbox [.wait]) = .next builtState ∧ step (builtState.setInbox [.reset]) = .next freshState ∧
    step (freshState.setPh (.conInit 1)) = .next (initGenerator 1 freshState) :=
  ⟨eq_next_of_isNext (by decide), by decide, eq_next_of_isNext (by decide), eq_next_of_isNext (by decide),
    eq_next_of_isNext (by decide)⟩

theorem witness_ContextsDoNotInterfere :
    exec (.deriveSeed 1) builtState = .next (derive 1 builtState) ∧
    (∀ ph ∈ [Phase.drvSplit, .drvLut, .drvB2, .drvInit, .drvLoad, .drvPack], (stateAt ph).ph = ph) ∧
    (stateAt (.drvSample .low .scan)).ph = .drvSample .low .scan ∧
    (exec .advance builtState = .next (after (exec .advance builtState))) ∧
    (stateAt (.conCheck 3)).ph = .conCheck 3 ∧ (stateAt .advSum).ph = .advSum :=
  ⟨exec_deriveSeed (by decide) 1, by decide, by decide, eq_next_of_isNext (by decide), by decide, by decide⟩

/-- The largest index: its bucket is 184467440737, its table index 7 (V4.1). -/
theorem witness_SplitAndCycleStages :
    (stateWith .drvSplit (orchAt 0xffffffffffffffff)).ph = .drvSplit ∧
    ∃ s : State, s.ph = .drvB2 ∧ s.orch.bucket.toNat ≤ 184467440737 ∧ s.orch.bucket.toNat = 184467440737 ∧
      s.orch.ti.toNat = s.orch.bucket.toNat % 30 :=
  ⟨rfl, stateWith .drvB2 ⟨0xffffffffffffffff, 184467440737, 9551615, 7, 0, 0, 0, 0, 0⟩, by decide⟩

theorem witness_LutStageSelectsTheEntry :
    (stateWith .drvLut (orchAt 0)).ph = .drvLut ∧
    ((orchAt 0xfffffffffa0a1eff).index.toNat + 100000000 < 2 ^ 64 ∧
      (orchAt 0xffffffffffffffff).index = (orchAt 0xfffffffffa0a1eff).index + 100000000) ∧
    ((orchAt 0).index.toNat + 100000000 < 2 ^ 64 ∧ (orchAt 100000000).index = (orchAt 0).index + 100000000) := by decide

theorem witness_InitialValueForms :
    ((stateWith .drvInit (orchAt 5)).ph = .drvInit ∧ (stateWith .drvInit (orchAt 5)).orch.offset = 0 ∧
      (stateWith .drvInit (orchAt 5)).orch.bucket2 = 0) ∧ (orchAt 5).index = 5 := by decide

/-- A step that changes T, for each way it can. -/
theorem witness_LoadStageBypassesParity :
    (stateWith .drvLoad ⟨0, 0, 0, 0, 2, 0, 4, 0, 0⟩).ph = .drvLoad ∧
    (after (step (stateWith .drvLoad ⟨0, 0, 0, 0, 2, 0, 4, 0, 0⟩))).t ≠ (stateWith .drvLoad ⟨0, 0, 0, 0, 2, 0, 4, 0, 0⟩).t ∧
    (after (step ((builtState.setT ⟨1, 1, 1⟩).setInbox [.reset]))).t ≠ (builtState.setT ⟨1, 1, 1⟩).t ∧
    (after (step (builtState.presentWord 0x30000000000000001#66))).t ≠ builtState.t ∧
    (after (step ((stateAt (.drvSample .high .drawWeyl)).setT ⟨1, 0, 0⟩))).t ≠ ⟨1, 0, 0⟩ := by decide +kernel

/-- `m` at its largest value before a window, 28, with a used value and with a new one. -/
theorem witness_WindowIsTakenOrSkipped :
    isUsed 0x7f 6 = true ∧ ((0x7f : U16).getLsbD (nibble 0x5 0).toNat = true) ∧
    ((0x7f : U16).getLsbD (nibble 0x9 0).toNat = false ∧ (28 : U6).toNat ≤ 28) := by decide

theorem witness_DistinctDrawIsTheResult : distinctNibbles 0x76543210 := by unfold distinctNibbles; decide

theorem witness_SampleCollectsFirstEightDistinct :
    drawsToFill (startContext 1) 2 ∧ 2 ≤ 64 ∧ ∀ e < 2, ¬ fillsWithin (startContext 1) e :=
  ⟨witness_bothFill.1, by decide, witness_bothFill.1.2⟩

/-- Registers that meet the invariants: with seven nibbles taken (`m` = 28), with eight, and with the one nibble 0 before
a draw of zeros, which takes nothing. -/
theorem witness_SamplerInvariants :
    (Sampler.Sound ⟨0x6543210, 0x7f, 28, 0x76543210, 28, 7⟩ ∧ (28 : U6).toNat ≤ 28) ∧
    (Sampler.Sound ⟨0x76543210, 0xff, 32, 0x76543210, 28, 7⟩ ∧ (32 : U6).toNat = 32) ∧
    (Sampler.Sound ⟨0, 1, 4, 0, 0, 0⟩ ∧ (drawAndScan ⟨0, 0, 0⟩ ⟨0, 1, 4, 0, 0, 0⟩).2.m = 4) := by
  refine ⟨⟨⟨by decide, by decide, by decide, by decide, by decide⟩, by decide⟩,
    ⟨⟨by decide, by decide, by decide, by decide, by decide⟩, by decide⟩,
    ⟨by decide, by decide, by decide, by decide, by decide⟩, by decide⟩

theorem witness_DeriveSeedCompletes :
    freshState.ready = true ∧ bothFill 1 2 2 ∧ 2 ≤ Config.drawsPerStep :=
  ⟨by decide, witness_bothFill, by decide⟩

/-- A context that never shows eight distinct nibbles: all its draws are 0. -/
theorem witness_DeriveSeedRespondsIffSamplesFill :
    (freshState.ready = true ∧ bothFill 1 2 2) ∧
    (stateAt (.drvSample .high .clear)).inbox = [] ∧ ∀ n : Nat, ¬ fillsWithin (stateAt (.drvSample .high .clear)).t n := by
  refine ⟨⟨by decide, witness_bothFill⟩, rfl, fun n => ?_⟩
  have still : ∀ n : Nat, afterSteps n ⟨0, 0, 0⟩ = ⟨0, 0, 0⟩ := by
    intro n
    induction n with
    | zero => rfl
    | succ n ih => exact ih
  have zeros : ∀ ks : List U4, (∀ k ∈ ks, k = 0) → (firstSeenAfter [0] ks).length ≤ 1 := by
    intro ks
    induction ks with
    | nil => intro _; decide
    | cons k ks ih =>
      intro h
      have hk : k = 0 := h k (by simp)
      subst hk
      exact ih fun x hx => h x (by simp [hx])
  have all0 : ∀ k ∈ nibbleStream ⟨0, 0, 0⟩ n, k = 0 := by
    intro k hk
    simp only [nibbleStream, List.mem_flatMap] at hk
    obtain ⟨d, _, hd⟩ := hk
    rw [drawAt, still] at hd
    revert hd
    have : ∀ k ∈ windowsOf (genStep ⟨0, 0, 0⟩).2, k = 0 := by decide
    exact this k
  show ¬ 8 ≤ (firstSeen (nibbleStream ⟨0, 0, 0⟩ n)).length
  have bound : (firstSeen (nibbleStream ⟨0, 0, 0⟩ n)).length ≤ 1 := by
    unfold firstSeen
    generalize nibbleStream ⟨0, 0, 0⟩ n = ks at all0
    cases ks with
    | nil => decide
    | cons k ks =>
      have hk : k = 0 := all0 k (by simp)
      subst hk
      exact zeros ks fun x hx => all0 x (by simp [hx])
  omega

theorem witness_DerivedSeedIsOdd :
    (exec (.deriveSeed 1) freshState = .next (derive 1 freshState) ∧
      (derive 1 freshState).sent = ⟨.ok, 0x64d098b5c4f26d37⟩ :: freshState.sent) ∧
    freshState.ready = true ∧ (stateAt .drvPack).ph = .drvPack ∧ drawsToFill (startContext 1) 2 :=
  ⟨⟨exec_deriveSeed (by decide) 1, by decide +kernel⟩, by decide, by decide, witness_bothFill.1⟩

theorem witness_DeriveSeedIsAFunctionOfItsIndex :
    freshState.ready = true ∧ (builtState.setT ⟨1, 2, 3⟩).ready = true ∧ freshState ≠ builtState := by decide

theorem advance_next (s : State) : ∃ t, exec .advance s = .next t := ⟨_, rfl⟩

theorem witness_InterleavingChangesNoResponse :
    (builtState.ready = true ∧ exec (.deriveSeed 1) builtState = .next (derive 1 builtState) ∧
      (derive 1 builtState).ready = true) ∧
    ((∃ u, exec .advance builtState = .next u) ∧ ∃ v, exec .advance (derive 1 builtState) = .next v) ∧
    (∃ t v, exec (.construct 3) builtState = .next t ∧ exec (.deriveSeed 1) t = .next v) ∧
    ∃ t v, exec .advance builtState = .next t ∧ exec (.deriveSeed 1) t = .next v :=
  ⟨⟨by decide, exec_deriveSeed (by decide) 1, by decide +kernel⟩,
    ⟨advance_next _, advance_next _⟩,
    ⟨_, _, exec_construct_odd (by decide) (by decide), exec_deriveSeed (by decide) 1⟩,
    ⟨_, _, exec_advance_valid (by decide) (by decide), exec_deriveSeed (by decide) 1⟩⟩

theorem witness_StepRunsTheDecodedCommand :
    ((freshState.presentWord 0x30000000000000009#66).ready = true ∧
      (freshState.presentWord 0x30000000000000009#66).inbox = [.command 0x30000000000000009#66]) ∧
    (0x30000000000000009 < 2 ^ 66 ∧ 0x30000000000000009 < 2 ^ 66) ∧
    ((freshState.setInbox [.start 0x20000000000000000#66]).ready = true) ∧
    (freshState.setInbox [.wait]).inbox = [.wait] := by decide

theorem witness_BusyEngineAcceptsNothing :
    (stateAt .advSum).ready = false ∧
    ((stateAt .advSum).setInbox [.command 0x20000000000000000#66]).inbox = [.command 0x20000000000000000#66] ∧
    ((stateAt .advSum).setInbox [.start 0x20000000000000000#66]).inbox = [.start 0x20000000000000000#66] := by decide

theorem witness_OneResponsePerAcceptedCommand :
    step (freshState.presentWord 0#66) = .next (freshState.errorResponse .illegalCmd) ∧
    (∀ rest, (freshState.presentWord 0#66).inbox ≠ .reset :: rest) ∧ accepting (freshState.presentWord 0#66) = true ∧
    step (stateAt .advOut) = .next ((stateAt .advOut).respond .ok 0) ∧ accepting (stateAt .advOut) = false := by
  refine ⟨eq_next_of_isNext (by decide), ?_, by decide, eq_next_of_isNext (by decide), by decide⟩
  intro rest h
  cases h

theorem witness_ResetAbandonsTheCommand :
    ((stateAt (.drvSample .low .scan)).setInbox [.reset]).inbox = [.reset] ∧
    (stateAt .advOut).ready = false ∧ (after (step (stateAt .advOut))).ready = true := by decide

/-- The invariant at a stage of SAMPLE with `m` = 28, and the step from there. -/
theorem witness_EveryStepKeepsTheInvariant :
    (∃ t, Inv freshState ∧ step freshState = .next t) ∧
    ∃ s t : State, s.ph = .drvSample .high .drawOut ∧ Inv s ∧ step s = .next t :=
  ⟨⟨freshState, ⟨by decide, trivial⟩, eq_next_of_isNext (by decide)⟩,
    ((stateAt (.drvSample .high .drawOut)).setT ⟨1, 0, 0⟩).setSmp ⟨0x6543210, 0x7f, 28, 0, 0, 0⟩, _, rfl,
    ⟨by decide, by decide, ⟨⟨by decide, by decide, by decide, by decide, by decide⟩, by decide⟩, nofun⟩, rfl⟩

/-- Two different states with the same live part: registers the spec leaves unspecified differ (idle, no generator),
and registers that a SAMPLE writes before it reads them. -/
theorem witness_NoResponseDependsOnUnspecifiedRegisters :
    (livePart freshState = livePart (freshState.setG ⟨4, 5, 6⟩) ∧ freshState ≠ freshState.setG ⟨4, 5, 6⟩) ∧
    (livePart (stateAt (.drvSample .low .clear)) =
        livePart ((stateAt (.drvSample .low .clear)).setSmp ⟨1, 2, 3, 4, 5, 6⟩) ∧
      stateAt (.drvSample .low .clear) ≠ (stateAt (.drvSample .low .clear)).setSmp ⟨1, 2, 3, 4, 5, 6⟩) := by decide

theorem witness_StageByStageEqualsTransaction : builtState.ready = true ∧ builtState.inbox = [] := by decide

theorem witness_ShortCommandsRespond :
    builtState.ready = true ∧ builtState.inbox = [] ∧ (0x2ffffffffffffffff#66 : CmdWord).toNat / 2 ^ 64 ≠ 3 := by decide

/-- One command for each error status, and one that succeeds. -/
theorem witness_ErrorResponsesLeaveNoTrace :
    (exec (.construct 2) builtState = .next (builtState.errorResponse .invalidSeed) ∧
      (builtState.errorResponse .invalidSeed).sent = ⟨.invalidSeed, 0⟩ :: builtState.sent) ∧
    exec .advance freshState = .next (freshState.errorResponse .notConstructed) ∧
    exec .illegal builtState = .next (builtState.errorResponse .illegalCmd) ∧
    exec (.construct 3) builtState = .next (initGenerator 3 builtState) :=
  ⟨⟨eq_next_of_isNext (by decide), by decide⟩, eq_next_of_isNext (by decide), eq_next_of_isNext (by decide),
    eq_next_of_isNext (by decide)⟩

theorem witness_IdleEngineWaits :
    builtState.ready = true ∧ builtState.inbox = [] ∧ (builtState.setInbox [.wait]).inbox = [.wait] := by decide

end Sys2Proof.Tests
end

section
/-! The step, the stages and the answers of `exec` as equations, one per case of their definitions (10_state.md R18):
the proofs below cite these and unfold neither `step` nor `stage`. -/

namespace Sys2Proof.Machine

theorem step_wait {s : State} {rest : List HostEvent} (h : s.inbox = .wait :: rest) :
    step s = .next (stage (s.setInbox rest)) := by
  simp only [step, h]

theorem step_reset {s : State} {rest : List HostEvent} (h : s.inbox = .reset :: rest) :
    step s = .next (s.setInbox rest).resetEvent := by
  simp only [step, h]

theorem step_command {s : State} {c : CmdWord} {rest : List HostEvent} (h : s.inbox = .command c :: rest)
    (hr : s.ready = true) : step s = exec (decode c) (s.setInbox rest) := by
  simp only [step, h, hr, if_true]

theorem step_start {s : State} {c : CmdWord} {rest : List HostEvent} (h : s.inbox = .start c :: rest)
    (hr : s.ready = true) : step s = .next (accept (decode c) (s.setInbox rest)) := by
  simp only [step, h, hr, if_true]

/-- A word presented to a busy engine stays presented (30_encoding.md R43 (a)). -/
theorem step_busy {s : State} {c : CmdWord} {rest : List HostEvent}
    (h : s.inbox = .command c :: rest ∨ s.inbox = .start c :: rest) (hr : s.ready = false) :
    step s = .next (stage s) := by
  rcases h with h | h <;> simp [step, h, hr]

/-- No command is refused and none faults. -/
theorem exec_answers (i : Instr) (s : State) : ∃ t, exec i s = .next t := by
  cases i <;> exact ⟨_, rfl⟩

/-- No step is refused and none faults. -/
theorem step_answers (s : State) : ∃ t, step s = .next t := by
  cases hi : s.inbox with
  | nil => exact ⟨_, step_nil hi⟩
  | cons e rest =>
    cases e with
    | wait => exact ⟨_, step_wait hi⟩
    | reset => exact ⟨_, step_reset hi⟩
    | command c =>
      cases hr : s.ready with
      | false => exact ⟨_, step_busy (.inl hi) hr⟩
      | true => exact step_command hi hr ▸ exec_answers _ _
    | start c =>
      cases hr : s.ready with
      | false => exact ⟨_, step_busy (.inr hi) hr⟩
      | true => exact ⟨_, step_start hi hr⟩

/-! Updates in a fixed order, `ph` outermost: a later update of the same field replaces the earlier one. -/

@[simp] theorem State.setG_setG (s : State) (C D : Context) : (s.setG C).setG D = s.setG D := rfl
@[simp] theorem State.setT_setT (s : State) (C D : Context) : (s.setT C).setT D = s.setT D := rfl
@[simp] theorem State.setOrch_setOrch (s : State) (o p : Orchestrator) : (s.setOrch o).setOrch p = s.setOrch p := rfl
@[simp] theorem State.setPh_setPh (s : State) (p q : Phase) : (s.setPh p).setPh q = s.setPh q := rfl
@[simp] theorem State.setPh_setG (s : State) (p : Phase) (C : Context) :
    (s.setPh p).setG C = (s.setG C).setPh p := rfl
@[simp] theorem State.setPh_setT (s : State) (p : Phase) (C : Context) :
    (s.setPh p).setT C = (s.setT C).setPh p := rfl
@[simp] theorem State.setPh_setSmp (s : State) (p : Phase) (r : Sampler) :
    (s.setPh p).setSmp r = (s.setSmp r).setPh p := rfl
@[simp] theorem State.setPh_setOrch (s : State) (p : Phase) (o : Orchestrator) :
    (s.setPh p).setOrch o = (s.setOrch o).setPh p := rfl
@[simp] theorem State.setPh_respond (s : State) (p : Phase) (st : Status) (d : U64) :
    (s.setPh p).respond st d = s.respond st d := rfl

section
variable {s : State}

theorem stage_conCheck_odd {seed : U64} (h : s.ph = .conCheck seed) (ho : isOdd seed = true) :
    stage s = s.setPh (.conInit seed) := by simp only [stage, h, ho, if_true]

theorem stage_conCheck_even {seed : U64} (h : s.ph = .conCheck seed) (ho : isOdd seed = false) :
    stage s = s.errorResponse .invalidSeed := by simp [stage, h, ho]

theorem stage_conInit {seed : U64} (h : s.ph = .conInit seed) : stage s = initGenerator seed s := by
  simp only [stage, h]

theorem stage_advCheck_valid (h : s.ph = .advCheck) (hv : s.gv = true) : stage s = s.setPh .advSquare := by
  simp only [stage, h, hv, if_true]

theorem stage_advCheck_invalid (h : s.ph = .advCheck) (hv : s.gv = false) :
    stage s = s.errorResponse .notConstructed := by simp [stage, h, hv]

theorem stage_advSquare (h : s.ph = .advSquare) : stage s = (s.setG (stepSquare s.g)).setPh .advWeyl := by
  simp only [stage, h]

theorem stage_advWeyl (h : s.ph = .advWeyl) : stage s = (s.setG (stepWeyl s.g)).setPh .advSum := by
  simp only [stage, h]

theorem stage_advSum (h : s.ph = .advSum) : stage s = (s.setG (stepSum s.g)).setPh .advRotate := by
  simp only [stage, h]

theorem stage_advRotate (h : s.ph = .advRotate) : stage s = (s.setG (stepRotate s.g)).setPh .advOut := by
  simp only [stage, h]

theorem stage_advOut (h : s.ph = .advOut) : stage s = s.respond .ok (zext64 (stepOut s.g)) := by
  simp only [stage, h]

theorem stage_drvSplit (h : s.ph = .drvSplit) : stage s = (s.setOrch (splitIndex s.orch)).setPh .drvLut := by
  simp only [stage, h]

theorem stage_drvLut (h : s.ph = .drvLut) : stage s = (s.setOrch (selectEntry s.orch)).setPh .drvB2 := by
  simp only [stage, h]

theorem stage_drvB2 (h : s.ph = .drvB2) : stage s = (s.setOrch (countCycles s.orch)).setPh .drvInit := by
  simp only [stage, h]

theorem stage_drvInit (h : s.ph = .drvInit) : stage s = (s.setOrch (startValue s.orch)).setPh .drvLoad := by
  simp only [stage, h]

theorem stage_drvLoad (h : s.ph = .drvLoad) :
    stage s = (s.setT (loadedContext s.orch)).setPh (.drvSample .high .clear) := by
  simp only [stage, h]

theorem stage_drvSample {half : Half} {st : SampleStage} (h : s.ph = .drvSample half st) :
    stage s = sampleStage half st s := by
  simp only [stage, h]

section
variable {half : Half}

theorem stage_smpClear (h : s.ph = .drvSample half .clear) :
    stage s = (s.setSmp (cleared s.smp)).setPh (.drvSample half .drawSquare) := stage_drvSample h

theorem stage_drawSquare (h : s.ph = .drvSample half .drawSquare) :
    stage s = (s.setT (stepSquare s.t)).setPh (.drvSample half .drawWeyl) := stage_drvSample h

theorem stage_drawWeyl (h : s.ph = .drvSample half .drawWeyl) :
    stage s = (s.setT (stepWeyl s.t)).setPh (.drvSample half .drawSum) := stage_drvSample h

theorem stage_drawSum (h : s.ph = .drvSample half .drawSum) :
    stage s = (s.setT (stepSum s.t)).setPh (.drvSample half .drawRotate) := stage_drvSample h

theorem stage_drawRotate (h : s.ph = .drvSample half .drawRotate) :
    stage s = (s.setT (stepRotate s.t)).setPh (.drvSample half .drawOut) := stage_drvSample h

theorem stage_drawOut (h : s.ph = .drvSample half .drawOut) :
    stage s = (s.setSmp { s.smp with j := stepOut s.t, i := 0 }).setPh (.drvSample half .scan) := stage_drvSample h

theorem stage_scan (h : s.ph = .drvSample half .scan) : stage s = scanStage half s := stage_drvSample h

end

theorem stage_drvPack (h : s.ph = .drvPack) : stage s = respondSeed s := by simp only [stage, h]

end

/-- Where the engine stands after a draw has been scanned: before the next draw, or past the SAMPLE if it has filled
(43_sampler.md R72). -/
def afterDraws (h : Half) (s : State) : State :=
  if s.smp.m < 32 then s.setPh (.drvSample h .drawSquare) else finishHalf h s

theorem afterDraws_more {h : Half} {s : State} (hm : s.smp.m < 32) :
    afterDraws h s = s.setPh (.drvSample h .drawSquare) := if_pos hm

theorem afterDraws_full {h : Half} {s : State} (hm : ¬ s.smp.m < 32) : afterDraws h s = finishHalf h s := if_neg hm

/-- A SAMPLE in one step stands where its draws have left it. -/
theorem runHalf_eq_afterDraws (h : Half) (s : State) :
    runHalf h s = afterDraws h ((s.setT (sampleDraws Config.drawsPerStep s.t (cleared s.smp)).1).setSmp
      (sampleDraws Config.drawsPerStep s.t (cleared s.smp)).2) := rfl

/-- The stage SMP_SCAN at the last window of a draw that is examined. -/
theorem scanStage_last {h : Half} {s : State} (hl : (takeWindow s.smp).m = 32 ∨ (takeWindow s.smp).i = 28) :
    scanStage h s = afterDraws h (s.setSmp (takeWindow s.smp)) := by
  rcases scanStage_cases h s with ⟨h32, e⟩ | ⟨_, _, hlt, e⟩ | ⟨_, _, hlt, e⟩ | ⟨h32, h28, _⟩
  · rw [e, afterDraws_full]
    show ¬ (takeWindow s.smp).m < 32
    rw [h32]
    decide
  · rw [e, afterDraws_more hlt]
  · rw [e, afterDraws_full hlt]
  · exact absurd hl (not_or.2 ⟨h32, h28⟩)

/-- No stage of SAMPLE touches the generator (10_state.md R15). -/
theorem sampleStage_generator (h : Half) (st : SampleStage) (s : State) :
    (sampleStage h st s).g = s.g ∧ (sampleStage h st s).gv = s.gv := by
  cases st with
  | scan =>
    change (scanStage h s).g = s.g ∧ (scanStage h s).gv = s.gv
    rcases scanStage_cases h s with ⟨_, e⟩ | ⟨_, _, _, e⟩ | ⟨_, _, _, e⟩ | ⟨_, _, e⟩
    all_goals rw [e]; exact ⟨rfl, rfl⟩
  | _ => exact ⟨rfl, rfl⟩

/-- No stage of DERIVE_SEED touches the generator (42_seed_deriver.md R63). -/
theorem stage_derive_generator {s : State}
    (h : s.ph ∈ [.drvSplit, .drvLut, .drvB2, .drvInit, .drvLoad, .drvPack] ∨ ∃ half st, s.ph = .drvSample half st) :
    (stage s).g = s.g ∧ (stage s).gv = s.gv := by
  rcases h with h | ⟨half, st, h⟩
  · simp only [List.mem_cons, List.not_mem_nil, or_false] at h
    rcases h with h | h | h | h | h | h
    · rw [stage_drvSplit h]; exact ⟨rfl, rfl⟩
    · rw [stage_drvLut h]; exact ⟨rfl, rfl⟩
    · rw [stage_drvB2 h]; exact ⟨rfl, rfl⟩
    · rw [stage_drvInit h]; exact ⟨rfl, rfl⟩
    · rw [stage_drvLoad h]; exact ⟨rfl, rfl⟩
    · rw [stage_drvPack h]; exact ⟨rfl, rfl⟩
  · rw [stage_drvSample h]; exact sampleStage_generator half st s

/-- No stage of CONSTRUCT or ADVANCE touches T or the scratch registers (41_generator.md R58 (c), R59 (d)). -/
theorem stage_generator_scratch {s : State}
    (h : s.ph ∈ [.advCheck, .advSquare, .advWeyl, .advSum, .advRotate, .advOut] ∨
      ∃ seed, s.ph = .conCheck seed ∨ s.ph = .conInit seed) :
    (stage s).t = s.t ∧ (stage s).smp = s.smp ∧ (stage s).orch = s.orch := by
  rcases h with h | ⟨seed, h | h⟩
  · simp only [List.mem_cons, List.not_mem_nil, or_false] at h
    rcases h with h | h | h | h | h | h
    · cases hv : s.gv with
      | false => rw [stage_advCheck_invalid h hv]; exact ⟨rfl, rfl, rfl⟩
      | true => rw [stage_advCheck_valid h hv]; exact ⟨rfl, rfl, rfl⟩
    · rw [stage_advSquare h]; exact ⟨rfl, rfl, rfl⟩
    · rw [stage_advWeyl h]; exact ⟨rfl, rfl, rfl⟩
    · rw [stage_advSum h]; exact ⟨rfl, rfl, rfl⟩
    · rw [stage_advRotate h]; exact ⟨rfl, rfl, rfl⟩
    · rw [stage_advOut h]; exact ⟨rfl, rfl, rfl⟩
  · cases ho : isOdd seed with
    | false => rw [stage_conCheck_even h ho]; exact ⟨rfl, rfl, rfl⟩
    | true => rw [stage_conCheck_odd h ho]; exact ⟨rfl, rfl, rfl⟩
  · rw [stage_conInit h]; exact ⟨rfl, rfl, rfl⟩

/-- A stage keeps the seed of G and `gv`, unless it is CON_INIT. -/
theorem stage_seed_cases (s : State) :
    ((stage s).g.s = s.g.s ∧ (stage s).gv = s.gv) ∨
    ∃ seed, s.ph = .conInit seed ∧ (stage s).g = ⟨seed, 0, 0⟩ ∧ (stage s).gv = true := by
  cases h : s.ph with
  | idle => rw [stage_idle ((State.ready_iff s).2 h)]; exact .inl ⟨rfl, rfl⟩
  | conCheck seed =>
    cases ho : isOdd seed with
    | false => rw [stage_conCheck_even h ho]; exact .inl ⟨rfl, rfl⟩
    | true => rw [stage_conCheck_odd h ho]; exact .inl ⟨rfl, rfl⟩
  | conInit seed => rw [stage_conInit h]; exact .inr ⟨seed, rfl, rfl, rfl⟩
  | advCheck =>
    cases hv : s.gv with
    | false => rw [stage_advCheck_invalid h hv]; exact .inl ⟨rfl, hv⟩
    | true => rw [stage_advCheck_valid h hv]; exact .inl ⟨rfl, hv⟩
  | advSquare => rw [stage_advSquare h]; exact .inl ⟨rfl, rfl⟩
  | advWeyl => rw [stage_advWeyl h]; exact .inl ⟨rfl, rfl⟩
  | advSum => rw [stage_advSum h]; exact .inl ⟨rfl, rfl⟩
  | advRotate => rw [stage_advRotate h]; exact .inl ⟨rfl, rfl⟩
  | advOut => rw [stage_advOut h]; exact .inl ⟨rfl, rfl⟩
  | drvSample half st =>
    obtain ⟨hg, hv⟩ := stage_derive_generator (s := s) (.inr ⟨half, st, h⟩)
    exact .inl ⟨by rw [hg], hv⟩
  | drvSplit | drvLut | drvB2 | drvInit | drvLoad | drvPack =>
    obtain ⟨hg, hv⟩ := stage_derive_generator (s := s) (.inl (by simp [h]))
    exact .inl ⟨by rw [hg], hv⟩

/-- Everything a command on a ready engine can answer. -/
theorem exec_cases {i : Instr} {s t : State} (hr : s.ready = true) (h : exec i s = .next t) :
    (∃ st, t = s.errorResponse st) ∨
    (∃ seed, i = .construct seed ∧ isOdd seed = true ∧ t = initGenerator seed s) ∨
    (i = .advance ∧ s.gv = true ∧ t = (s.setG (genStep s.g).1).respond .ok (zext64 (genStep s.g).2)) ∨
    (∃ index, i = .deriveSeed index ∧ t = derive index s) := by
  cases i with
  | illegal => rw [exec_illegal hr] at h; cases h; exact .inl ⟨_, rfl⟩
  | construct seed =>
    cases ho : isOdd seed with
    | false => rw [exec_construct_even hr ho] at h; cases h; exact .inl ⟨_, rfl⟩
    | true => rw [exec_construct_odd hr ho] at h; cases h; exact .inr (.inl ⟨seed, rfl, ho, rfl⟩)
  | advance =>
    cases hv : s.gv with
    | false => rw [exec_advance_invalid hr hv] at h; cases h; exact .inl ⟨_, rfl⟩
    | true => rw [exec_advance_valid hr hv] at h; cases h; exact .inr (.inr (.inl ⟨rfl, rfl, rfl⟩))
  | deriveSeed index => rw [exec_deriveSeed hr] at h; cases h; exact .inr (.inr (.inr ⟨index, rfl, rfl⟩))

/-- A command keeps the seed of G and `gv`, unless it is a successful CONSTRUCT. -/
theorem exec_seed_cases {i : Instr} {s t : State} (hr : s.ready = true) (h : exec i s = .next t) :
    (t.g.s = s.g.s ∧ t.gv = s.gv) ∨
    ∃ seed, i = .construct seed ∧ isOdd seed = true ∧ t.g = ⟨seed, 0, 0⟩ ∧ t.gv = true := by
  obtain ⟨st, rfl⟩ | ⟨seed, hi, ho, rfl⟩ | ⟨_, _, rfl⟩ | ⟨index, _, rfl⟩ := exec_cases hr h
  · exact .inl ⟨rfl, rfl⟩
  · exact .inr ⟨seed, hi, ho, rfl, rfl⟩
  · exact .inl ⟨rfl, rfl⟩
  · obtain ⟨hg, hv, _⟩ := derive_frame index s
    exact .inl ⟨by rw [hg], hv⟩

/-- Acceptance of a command in the finer grain moves neither G nor `gv`. -/
theorem accept_generator (i : Instr) (s : State) : (accept i s).g = s.g ∧ (accept i s).gv = s.gv := by
  cases i <;> exact ⟨rfl, rfl⟩

/-- What a step can do to the seed of G and to `gv`: nothing, a reset, or a successful CONSTRUCT in either grain. -/
theorem step_seed_cases {s t : State} (h : step s = .next t) :
    (t.g.s = s.g.s ∧ t.gv = s.gv) ∨
    (t.gv = false ∧ ∃ rest, s.inbox = .reset :: rest) ∨
    (∃ c rest seed, s.inbox = .command c :: rest ∧ s.ready = true ∧ decode c = .construct seed ∧
      isOdd seed = true ∧ t.g = ⟨seed, 0, 0⟩ ∧ t.gv = true) ∨
    (∃ seed, s.ph = .conInit seed ∧ t.g = ⟨seed, 0, 0⟩ ∧ t.gv = true) := by
  have widen : ∀ {p q a b : Prop}, p ∨ q → p ∨ a ∨ b ∨ q := by tauto
  obtain ⟨_, rfl⟩ | ⟨rest, _, rfl⟩ | ⟨rest, hi, rfl⟩ | ⟨c, rest, hi, hr, he⟩ | ⟨c, rest, _, _, rfl⟩ |
    ⟨c, rest, _, _, rfl⟩ := step_cases h
  · exact widen (stage_seed_cases s)
  · exact widen (stage_seed_cases (s.setInbox rest))
  · exact .inr (.inl ⟨rfl, rest, hi⟩)
  · obtain kept | ⟨seed, hd, ho, hg, hv⟩ := exec_seed_cases (s := s.setInbox rest) hr he
    · exact .inl kept
    · exact .inr (.inr (.inl ⟨c, rest, seed, hi, hr, hd, ho, hg, hv⟩))
  · obtain ⟨hg, hv⟩ := accept_generator (decode c) (s.setInbox rest)
    exact .inl ⟨by rw [hg]; rfl, hv⟩
  · exact widen (stage_seed_cases s)

/-- A command other than DERIVE_SEED keeps T and the scratch registers. -/
theorem exec_scratch {i : Instr} {s t : State} (hi : ∀ index, i ≠ .deriveSeed index) (h : exec i s = .next t) :
    t.t = s.t ∧ t.smp = s.smp ∧ t.orch = s.orch := by
  cases hr : s.ready with
  | false => rw [exec_busy hr] at h; cases h; exact ⟨rfl, rfl, rfl⟩
  | true =>
    obtain ⟨st, rfl⟩ | ⟨seed, _, _, rfl⟩ | ⟨_, _, rfl⟩ | ⟨index, he, _⟩ := exec_cases hr h
    · exact ⟨rfl, rfl, rfl⟩
    · exact ⟨rfl, rfl, rfl⟩
    · exact ⟨rfl, rfl, rfl⟩
    · exact absurd he (hi index)

/-- Settles O23: the three ways a step can write `G.s`. -/
theorem seedIsFixedForTheLifetime : Obligations.SeedIsFixedForTheLifetime := by
  intro s t h
  obtain ⟨hs, _⟩ | ⟨_, hreset⟩ | hcon | hinit := step_seed_cases h
  · exact .inl hs
  · exact .inr (.inl hreset)
  · exact .inr (.inr (.inl hcon))
  · exact .inr (.inr (.inr hinit))

/-- Settles O22: what a step can do to `gv`, and the three commands the rule names. -/
theorem generatorValidIsSetByConstructOnly : Obligations.GeneratorValidIsSetByConstructOnly := by
  refine ⟨?raise, ?clear, ?construct, ?reset, ?refuse⟩
  case raise =>
    intro s t h hs ht
    obtain ⟨_, hv⟩ | ⟨hv, _⟩ | ⟨c, rest, seed, hi, hr, hd, ho, _⟩ | ⟨seed, hph, _⟩ := step_seed_cases h
    · simp [hs, ht] at hv
    · simp [ht] at hv
    · exact .inl ⟨c, rest, seed, hi, hr, hd, ho⟩
    · exact .inr ⟨seed, hph⟩
  case clear =>
    intro s t h hs ht
    obtain ⟨_, hv⟩ | ⟨_, hreset⟩ | ⟨_, _, _, _, _, _, _, _, hv⟩ | ⟨_, _, _, hv⟩ := step_seed_cases h
    · simp [hs, ht] at hv
    · exact hreset
    · simp [ht] at hv
    · simp [ht] at hv
  case construct => exact fun seed s hr ho => ⟨_, exec_construct_odd hr ho, rfl⟩
  case reset => exact fun s rest hi => ⟨_, step_reset hi, rfl⟩
  case refuse =>
    intro s hr hv
    rw [exec_advance_invalid hr hv, ready_errorResponse hr]

/-- Settles O24: the frames of the commands and of their stages. -/
theorem contextsDoNotInterfere : Obligations.ContextsDoNotInterfere := by
  refine ⟨?_, fun index s => accept_generator _ s, fun s h => stage_derive_generator h,
    fun i s t hi h => exec_scratch hi h, fun s h => stage_generator_scratch h⟩
  intro index s t h
  obtain ⟨_, e⟩ | ⟨_, e⟩ := exec_deriveSeed_eq h
  · rw [e]; exact ⟨rfl, rfl⟩
  · obtain ⟨hg, hv, _⟩ := derive_frame index s
    rw [e]; exact ⟨hg, hv⟩

end Sys2Proof.Machine
end

section
/-! The invariant of the engine: it holds at reset and every step keeps it (10_state.md R13, 42_seed_deriver.md R64 to
R67, 43_sampler.md R75, R76). -/

namespace Sys2Proof.Machine

/-! ### The orchestrator registers -/

/-- DRV_SPLIT meets R64. -/
theorem splitSound_splitIndex (o : Orchestrator) : splitSound (splitIndex o) := by
  unfold splitSound
  rw [splitIndex_bucket_toNat, splitIndex_offset_toNat, splitIndex_index]
  omega

/-- DRV_LUT meets R65. -/
theorem entrySound_selectEntry (o : Orchestrator) : entrySound (selectEntry o) := by
  refine ⟨by rw [selectEntry_ti_toNat, selectEntry_bucket], tableIndex o.bucket, ?_, ?_⟩
  · rw [selectEntry_ti_toNat, tableIndex_val]
  · rw [selectEntry_tseed, lut]

/-- DRV_B2 meets R66, given the table index that DRV_LUT has left. -/
theorem cyclesSound_countCycles {o : Orchestrator} (h : entrySound o) : cyclesSound (countCycles o) := by
  obtain ⟨hti, _⟩ := h
  unfold cyclesSound
  rw [countCycles_bucket2_toNat, countCycles_bucket, countCycles_ti, hti]
  omega

/-- DRV_INIT meets R67. -/
theorem initialSound_startValue (o : Orchestrator) : initialSound (startValue o) := by
  unfold initialSound
  rw [startValue_initial_position, startValue_tseed, startValue_offset, startValue_bucket2]

/-- DRV_LUT does not write what R64 speaks of. -/
theorem splitSound_selectEntry {o : Orchestrator} (h : splitSound o) : splitSound (selectEntry o) := by
  simpa only [splitSound, selectEntry_index, selectEntry_bucket, selectEntry_offset] using h

/-- DRV_B2 does not write what R64 speaks of. -/
theorem splitSound_countCycles {o : Orchestrator} (h : splitSound o) : splitSound (countCycles o) := by
  simpa only [splitSound, countCycles_index, countCycles_bucket, countCycles_offset] using h

/-- DRV_B2 does not write what R65 speaks of. -/
theorem entrySound_countCycles {o : Orchestrator} (h : entrySound o) : entrySound (countCycles o) := by
  simpa only [entrySound, countCycles_ti, countCycles_bucket, countCycles_tseed] using h

/-- DRV_INIT does not write what R64 speaks of. -/
theorem splitSound_startValue {o : Orchestrator} (h : splitSound o) : splitSound (startValue o) := by
  simpa only [splitSound, startValue_index, startValue_bucket, startValue_offset] using h

/-- DRV_INIT does not write what R65 speaks of. -/
theorem entrySound_startValue {o : Orchestrator} (h : entrySound o) : entrySound (startValue o) := by
  simpa only [entrySound, startValue_ti, startValue_bucket, startValue_tseed] using h

/-- DRV_INIT does not write what R66 speaks of. -/
theorem cyclesSound_startValue {o : Orchestrator} (h : cyclesSound o) : cyclesSound (startValue o) := by
  simpa only [cyclesSound, startValue_bucket, startValue_bucket2, startValue_ti] using h

/-- DRV_LOAD gives T an odd seed: it is a LUT entry (U4). -/
theorem loadedContext_odd {o : Orchestrator} (h : entrySound o) : isOdd (loadedContext o).s = true := by
  obtain ⟨_, e, _, he⟩ := h
  change isOdd o.tseed = true
  rw [he]
  exact table_odd e

/-! ### The sampler registers -/

/-- Sound registers that are not full leave room for a window: every shift `k << m` has `m <= 28` (R75). -/
theorem Sampler.Sound.room {r : Sampler} (h : r.Sound) (hm : r.m < 32) : r.m.toNat ≤ 28 := by
  have hc := h.count
  rw [count_lt_32_iff] at hm
  omega

/-- Sound registers that are full hold eight distinct nibbles. -/
theorem Sampler.Sound.full_distinct {r : Sampler} (h : r.Sound) (hm : ¬ r.m < 32) : distinctNibbles r.a := by
  have hc := h.collected
  refine hc.result_distinct ?_
  have hlen := hc.len
  have hnot := hc.lt.not.1 hm
  omega

/-- A window keeps the registers sound (R76). -/
theorem Sampler.Sound.takeWindow {r : Sampler} (h : r.Sound) (hm : r.m.toNat ≤ 28) : (takeWindow r).Sound := by
  have hc := h.collected
  have hlen := hc.m
  exact (hc.take (by omega)).sound

/-- `j`, `i` and `k` are free: the invariants of R76 are about `a`, `c` and `m`. -/
theorem Sampler.Sound.congr {r r' : Sampler} (h : r.Sound) (ha : r'.a = r.a) (hc : r'.c = r.c) (hm : r'.m = r.m) :
    r'.Sound := by
  obtain ⟨nodup, len, m, a, c⟩ := h.collected
  exact Collected.sound ⟨nodup, len, hm ▸ m, ha ▸ a, hc ▸ c⟩

/-- A draw is scanned from its lowest window (R73). -/
theorem first_window : (0 : U5).toNat % 4 = 0 ∧ (0 : U5).toNat ≤ 28 := by decide

theorem next_window_toNat {i : U5} (h : i.toNat < 28) : (i + 4).toNat = i.toNat + 4 := by
  rw [BitVec.toNat_add]
  have h4 : (4 : U5).toNat = 4 := rfl
  omega

/-- The draws of a SAMPLE do not write `T.s`. -/
theorem sampleDraws_s (n : Nat) : ∀ (C : Context) (r : Sampler), (sampleDraws n C r).1.s = C.s := by
  induction n with
  | zero => intro C r; rfl
  | succ n ih =>
    intro C r
    by_cases hm : r.m < 32
    · rw [sampleDraws_more hm, ih]; exact genStep_s C
    · rw [sampleDraws_done hm]

/-! ### The stages -/

/-- What a stage of SAMPLE needs beyond its sampler registers: an odd `T.s`, and the first result when it is the
second SAMPLE. -/
def sampleReady (h : Half) (s : State) : Prop :=
  isOdd s.t.s = true ∧ (h = .low → distinctNibbles s.orch.high)

theorem stageSound_sample {s : State} {h : Half} {st : SampleStage} (hph : s.ph = .drvSample h st) :
    stageSound s ↔ sampleReady h s ∧ samplerSoundAt st s.smp := by
  simp only [stageSound, hph, sampleReady]
  tauto

/-- A move to a stage of SAMPLE whose registers are as it needs them. -/
theorem stageSound_setPh_sample {s : State} {h : Half} {st : SampleStage} (hr : sampleReady h s)
    (hs : samplerSoundAt st s.smp) : stageSound (s.setPh (.drvSample h st)) :=
  (stageSound_sample rfl).2 ⟨hr, hs⟩

/-- The end of a SAMPLE leaves the next stage its registers. -/
theorem stageSound_finishHalf {h : Half} {s : State} (hr : sampleReady h s) (hd : distinctNibbles s.smp.a) :
    stageSound (finishHalf h s) := by
  obtain ⟨hodd, hhigh⟩ := hr
  cases h with
  | high => exact ⟨hodd, trivial, fun _ => hd⟩
  | low => exact ⟨hhigh rfl, hd⟩

/-- After a draw, whether the SAMPLE goes on or has filled. -/
theorem stageSound_afterDraws {h : Half} {s : State} (hr : sampleReady h s) (hs : s.smp.Sound) :
    stageSound (afterDraws h s) := by
  by_cases hm : s.smp.m < 32
  · rw [afterDraws_more hm]; exact stageSound_setPh_sample hr ⟨hs, hs.room hm⟩
  · rw [afterDraws_full hm]; exact stageSound_finishHalf hr (hs.full_distinct hm)

/-- The stage SMP_SCAN. -/
theorem stageSound_scanStage {h : Half} {s : State} (hph : s.ph = .drvSample h .scan) (hr : sampleReady h s)
    (hs : samplerSoundAt .scan s.smp) : stageSound (scanStage h s) := by
  obtain ⟨sound, hm, hi4, hi28⟩ := hs
  have taken := sound.takeWindow hm
  have hi : (takeWindow s.smp).i = s.smp.i := takeWindow_i _
  by_cases hl : (takeWindow s.smp).m = 32 ∨ (takeWindow s.smp).i = 28
  · rw [scanStage_last hl]; exact stageSound_afterDraws hr taken
  · obtain ⟨h32, hne⟩ := not_or.1 hl
    have hcount := taken.count
    rw [scanStage_next h s h32 hne]
    rw [count_eq_32_iff] at h32
    rw [hi, ← BitVec.toNat_inj] at hne
    have hlast : (28 : U5).toNat = 28 := rfl
    have hnext : ((takeWindow s.smp).i + 4).toNat = s.smp.i.toNat + 4 := by
      rw [hi]; exact next_window_toNat (by omega)
    refine (stageSound_sample (s := s.setSmp { takeWindow s.smp with i := (takeWindow s.smp).i + 4 }) hph).2
      ⟨hr, taken.congr rfl rfl rfl, ?_, ?_, ?_⟩
    · show (takeWindow s.smp).m.toNat ≤ 28
      omega
    · show ((takeWindow s.smp).i + 4).toNat % 4 = 0
      omega
    · show ((takeWindow s.smp).i + 4).toNat ≤ 28
      omega

/-- The stages of SAMPLE. -/
theorem stageSound_sampleStage {h : Half} {st : SampleStage} {s : State} (hph : s.ph = .drvSample h st)
    (hs : stageSound s) : stageSound (sampleStage h st s) := by
  obtain ⟨hr, hsmp⟩ := (stageSound_sample hph).1 hs
  cases st with
  | clear =>
    have hm : (cleared s.smp).m.toNat ≤ 28 := by show (0 : U6).toNat ≤ 28; decide
    exact stageSound_setPh_sample (s := s.setSmp (cleared s.smp)) hr ⟨(Collected.cleared s.smp).sound, hm⟩
  | drawSquare => exact stageSound_setPh_sample hr hsmp
  | drawWeyl => exact stageSound_setPh_sample hr hsmp
  | drawSum => exact stageSound_setPh_sample hr hsmp
  | drawRotate => exact stageSound_setPh_sample hr hsmp
  | drawOut =>
    obtain ⟨sound, hm⟩ := hsmp
    exact stageSound_setPh_sample (s := s.setSmp { s.smp with j := stepOut s.t, i := 0 }) hr
      ⟨sound.congr rfl rfl rfl, hm, first_window⟩
  | scan => exact stageSound_scanStage hph hr hsmp

/-- A stage leaves the next stage its registers. -/
theorem stageSound_stage {s : State} (hs : stageSound s) : stageSound (stage s) := by
  have here := hs
  cases hph : s.ph <;> simp only [stageSound, hph] at here
  case idle => rw [stage_idle ((State.ready_iff s).2 hph)]; exact hs
  case conCheck seed =>
    cases ho : isOdd seed with
    | false => rw [stage_conCheck_even hph ho]; trivial
    | true => rw [stage_conCheck_odd hph ho]; exact ho
  case conInit seed => rw [stage_conInit hph]; trivial
  case advCheck =>
    cases hv : s.gv with
    | false => rw [stage_advCheck_invalid hph hv]; trivial
    | true => rw [stage_advCheck_valid hph hv]; exact hv
  case advSquare => rw [stage_advSquare hph]; exact here
  case advWeyl => rw [stage_advWeyl hph]; exact here
  case advSum => rw [stage_advSum hph]; exact here
  case advRotate => rw [stage_advRotate hph]; exact here
  case advOut => rw [stage_advOut hph]; trivial
  case drvSplit => rw [stage_drvSplit hph]; exact splitSound_splitIndex s.orch
  case drvLut => rw [stage_drvLut hph]; exact ⟨splitSound_selectEntry here, entrySound_selectEntry s.orch⟩
  case drvB2 =>
    obtain ⟨hsplit, hentry⟩ := here
    rw [stage_drvB2 hph]
    exact ⟨splitSound_countCycles hsplit, entrySound_countCycles hentry, cyclesSound_countCycles hentry⟩
  case drvInit =>
    obtain ⟨hsplit, hentry, hcycles⟩ := here
    rw [stage_drvInit hph]
    exact ⟨splitSound_startValue hsplit, entrySound_startValue hentry, cyclesSound_startValue hcycles,
      initialSound_startValue s.orch⟩
  case drvLoad =>
    obtain ⟨_, hentry, _⟩ := here
    rw [stage_drvLoad hph]
    exact ⟨loadedContext_odd hentry, trivial, nofun⟩
  case drvSample h st => rw [stage_drvSample hph]; exact stageSound_sampleStage hph hs
  case drvPack => rw [stage_drvPack hph]; trivial

/-- A stage keeps R13: the generator's seed changes only at CON_INIT, to the odd seed that CON_CHECK let pass. -/
theorem Inv.stage {s : State} (h : Inv s) : Inv (stage s) := by
  refine ⟨?_, stageSound_stage h.atStage⟩
  obtain ⟨hs, hv⟩ | ⟨seed, hph, hg, _⟩ := stage_seed_cases s
  · rw [hs, hv]; exact h.oddSeed
  · have hodd := h.atStage
    simp only [stageSound, hph] at hodd
    rw [hg]
    exact fun _ => hodd

/-! ### The commands -/

/-- A SAMPLE carried out in one step. -/
theorem stageSound_runHalf {h : Half} {s : State} (hr : sampleReady h s) : stageSound (runHalf h s) := by
  have hodd : isOdd (sampleDraws Config.drawsPerStep s.t (cleared s.smp)).1.s = true := by
    rw [sampleDraws_s]; exact hr.1
  have sound : (sampleDraws Config.drawsPerStep s.t (cleared s.smp)).2.Sound :=
    ((Collected.cleared s.smp).sample Config.drawsPerStep).sound
  rw [runHalf_eq_afterDraws]
  exact stageSound_afterDraws ⟨hodd, hr.2⟩ sound

theorem startContext_odd (index : U64) : isOdd (startContext index).s = true := table_odd _

/-- A DERIVE_SEED carried out in one step. -/
theorem stageSound_derive (index : U64) (s : State) : stageSound (derive index s) := by
  have first : stageSound (runHalf .high (prepareSampling index s)) :=
    stageSound_runHalf ⟨by rw [prepareSampling_t]; exact startContext_odd index, nofun⟩
  rcases derive_cases index s with ⟨_, e⟩ | ⟨hph, _, e⟩ | ⟨_, _, e⟩
  · rw [e]; exact first
  · rw [e]; exact stageSound_runHalf ((stageSound_sample hph).1 first).1
  · rw [e]; trivial

/-- A command carried out in one step keeps the invariant. -/
theorem Inv.exec {i : Instr} {s t : State} (h : Inv s) (hr : s.ready = true) (he : exec i s = .next t) : Inv t := by
  refine ⟨?_, ?_⟩
  · obtain ⟨hs, hv⟩ | ⟨seed, _, ho, hg, _⟩ := exec_seed_cases hr he
    · rw [hs, hv]; exact h.oddSeed
    · rw [hg]; exact fun _ => ho
  · obtain ⟨st, rfl⟩ | ⟨seed, _, _, rfl⟩ | ⟨_, _, rfl⟩ | ⟨index, _, rfl⟩ := exec_cases hr he
    · trivial
    · trivial
    · trivial
    · exact stageSound_derive index s

/-- Acceptance in the finer grain keeps the invariant: a command's first stage needs no register. -/
theorem Inv.accept {s : State} (h : Inv s) (i : Instr) : Inv (accept i s) := by
  refine ⟨?_, by cases i <;> trivial⟩
  obtain ⟨hg, hv⟩ := accept_generator i s
  rw [hg, hv]
  exact h.oddSeed

/-- The invariant does not speak of what the host will do. -/
theorem Inv.setInbox {s : State} (h : Inv s) (l : List HostEvent) : Inv (s.setInbox l) := ⟨h.oddSeed, h.atStage⟩

/-- A reset gives the invariant from any state. -/
theorem inv_resetEvent (s : State) : Inv s.resetEvent := ⟨nofun, trivial⟩

/-- Settles O42: the reset values, and ADVANCE with no generator. -/
theorem resetState : Obligations.ResetState :=
  ⟨rfl, rfl, rfl, _, exec_advance_invalid rfl rfl, rfl, rfl⟩

/-- Settles O43: the reset state is what a reset event gives. -/
theorem invariantAtReset : Obligations.InvariantAtReset := inv_resetEvent State.reset

/-- Settles O44: each thing a step can be keeps the invariant. -/
theorem everyStepKeepsTheInvariant : Obligations.EveryStepKeepsTheInvariant := by
  intro s t h hstep
  obtain ⟨_, rfl⟩ | ⟨rest, _, rfl⟩ | ⟨rest, _, rfl⟩ | ⟨c, rest, _, hr, he⟩ | ⟨c, rest, _, _, rfl⟩ |
    ⟨c, rest, _, _, rfl⟩ := step_cases hstep
  · exact h.stage
  · exact (h.setInbox rest).stage
  · exact inv_resetEvent _
  · exact (h.setInbox rest).exec hr he
  · exact (h.setInbox rest).accept _
  · exact h.stage

end Sys2Proof.Machine
end

section
/-! No register is read before it is written (10_state.md R24): a two-run argument. `LiveAlike` says of two states what
equal live parts say, and every operation of the engine keeps it. -/

namespace Sys2Proof.Machine

/-! ### Two states with the same live part -/

/-- The stages of an ADVANCE that read G without looking at `gv`. -/
def readsG : Phase → Bool
  | .advSquare | .advWeyl | .advSum | .advRotate | .advOut => true
  | _ => false

theorem liveG_iff (s : State) : liveG s = true ↔ s.gv = true ∨ readsG s.ph = true := by
  rw [← Bool.or_eq_true]
  simp only [liveG]
  cases s.ph <;> rfl

/-- The two states agree on all that a later stage reads. -/
structure LiveAlike (u v : State) : Prop where
  gv : u.gv = v.gv
  ph : u.ph = v.ph
  inbox : u.inbox = v.inbox
  sent : u.sent = v.sent
  g : liveG u = true → u.g = v.g
  t : liveT u.ph u.t = liveT u.ph v.t
  smp : liveSampler u.ph u.smp = liveSampler u.ph v.smp
  orch : liveOrchestrator u.ph u.orch = liveOrchestrator u.ph v.orch

@[simp] theorem livePart_gv (s : State) : (livePart s).gv = s.gv := rfl
@[simp] theorem livePart_ph (s : State) : (livePart s).ph = s.ph := rfl
@[simp] theorem livePart_inbox (s : State) : (livePart s).inbox = s.inbox := rfl
@[simp] theorem livePart_sent (s : State) : (livePart s).sent = s.sent := rfl
@[simp] theorem livePart_g (s : State) : (livePart s).g = if liveG s then s.g else ⟨0, 0, 0⟩ := rfl
@[simp] theorem livePart_t (s : State) : (livePart s).t = liveT s.ph s.t := rfl
@[simp] theorem livePart_smp (s : State) : (livePart s).smp = liveSampler s.ph s.smp := rfl
@[simp] theorem livePart_orch (s : State) : (livePart s).orch = liveOrchestrator s.ph s.orch := rfl

theorem livePart_eq_iff (u v : State) : livePart u = livePart v ↔ LiveAlike u v := by
  have same : u.gv = v.gv → u.ph = v.ph → liveG v = liveG u := fun hgv hph => by
    simp only [liveG, hgv, hph]
  constructor
  · intro h
    have hgv : u.gv = v.gv := by simpa only [livePart_gv] using congrArg State.gv h
    have hph : u.ph = v.ph := by simpa only [livePart_ph] using congrArg State.ph h
    refine ⟨hgv, hph, ?inbox, ?sent, ?g, ?t, ?smp, ?orch⟩
    case inbox => simpa only [livePart_inbox] using congrArg State.inbox h
    case sent => simpa only [livePart_sent] using congrArg State.sent h
    case g => intro hl; simpa only [livePart_g, same hgv hph, hl, if_true] using congrArg State.g h
    case t => simpa only [livePart_t, hph] using congrArg State.t h
    case smp => simpa only [livePart_smp, hph] using congrArg State.smp h
    case orch => simpa only [livePart_orch, hph] using congrArg State.orch h
  · rintro ⟨hgv, hph, hinbox, hsent, hg, ht, hsmp, horch⟩
    refine State.ext_fields ?g hgv ?t ?smp ?orch hph hinbox hsent
    case g =>
      rw [livePart_g, livePart_g, same hgv hph]
      split
      · next hl => exact hg hl
      · rfl
    case t => rw [livePart_t, livePart_t, ht, hph]
    case smp => rw [livePart_smp, livePart_smp, hsmp, hph]
    case orch => rw [livePart_orch, livePart_orch, horch, hph]

/-- The two states agree on what DERIVE_SEED neither reads nor writes. -/
def sameSurroundings (u v : State) : Prop :=
  u.gv = v.gv ∧ u.inbox = v.inbox ∧ u.sent = v.sent ∧ (u.gv = true → u.g = v.g)

theorem LiveAlike.surroundings {u v : State} (h : LiveAlike u v) : sameSurroundings u v :=
  ⟨h.gv, h.inbox, h.sent, fun hv => h.g ((liveG_iff u).2 (.inl hv))⟩

/-- At a stage that does not read G, the surroundings and the live scratch registers are all there is. -/
theorem sameSurroundings.alike {u v : State} {p : Phase} (h : sameSurroundings u v) (hp : readsG p = false)
    (hu : u.ph = p) (hv : v.ph = p) (ht : liveT p u.t = liveT p v.t)
    (hsmp : liveSampler p u.smp = liveSampler p v.smp)
    (horch : liveOrchestrator p u.orch = liveOrchestrator p v.orch) : LiveAlike u v := by
  obtain ⟨hgv, hinbox, hsent, hg⟩ := h
  subst hu
  refine ⟨hgv, hv.symm, hinbox, hsent, fun hl => ?_, ht, hsmp, horch⟩
  obtain hl | hl := (liveG_iff u).1 hl
  · exact hg hl
  · rw [hp] at hl; cases hl

/-- The same response leaves the same surroundings, and an idle engine has no live scratch register. -/
theorem sameSurroundings.respond {u v : State} (h : sameSurroundings u v) (st : Status) (d : U64) :
    LiveAlike (u.respond st d) (v.respond st d) := by
  obtain ⟨hgv, hinbox, hsent, hg⟩ := h
  refine sameSurroundings.alike (p := .idle) ⟨hgv, hinbox, ?_, hg⟩ rfl rfl rfl rfl rfl rfl
  exact congrArg (⟨st, d⟩ :: ·) hsent

/-! ### The generator commands -/

theorem sameSurroundings.initGenerator {u v : State} (h : sameSurroundings u v) (seed : U64) :
    LiveAlike (initGenerator seed u) (initGenerator seed v) := by
  obtain ⟨_, hinbox, hsent, _⟩ := h
  exact sameSurroundings.respond (u := (u.setG ⟨seed, 0, 0⟩).setGv true) (v := (v.setG ⟨seed, 0, 0⟩).setGv true)
    ⟨rfl, hinbox, hsent, fun _ => rfl⟩ .ok 0

/-- The stages of ADVANCE read neither T nor a scratch register. -/
theorem scratch_unread_of_readsG {p : Phase} (hp : readsG p = true) :
    (∀ C, liveT p C = ⟨0, 0, 0⟩) ∧ (∀ r, liveSampler p r = ⟨0, 0, 0, 0, 0, 0⟩) ∧
    ∀ o, liveOrchestrator p o = ⟨0, 0, 0, 0, 0, 0, 0, 0, 0⟩ := by
  cases p with
  | advSquare | advWeyl | advSum | advRotate | advOut => exact ⟨fun _ => rfl, fun _ => rfl, fun _ => rfl⟩
  | _ => cases hp

/-- A stage of ADVANCE that works on equal contexts. -/
theorem LiveAlike.advance {u v : State} (h : LiveAlike u v) (hr : readsG u.ph = true) (f : Context → Context)
    {p : Phase} (hp : readsG p = true) : LiveAlike ((u.setG (f u.g)).setPh p) ((v.setG (f v.g)).setPh p) := by
  have hg : u.g = v.g := h.g ((liveG_iff u).2 (.inr hr))
  obtain ⟨ht, hsmp, horch⟩ := scratch_unread_of_readsG hp
  exact ⟨h.gv, rfl, h.inbox, h.sent, fun _ => congrArg f hg, (ht _).trans (ht _).symm, (hsmp _).trans (hsmp _).symm,
    (horch _).trans (horch _).symm⟩

/-! ### The sampler -/

/-- `k` is written by every window before anything reads it. -/
theorem takeWindow_k_unread (r : Sampler) (k : U4) : takeWindow { r with k := k } = takeWindow r := rfl

/-- Nor are `i` and `k` read before the first window writes them. -/
theorem scanWindows_ik_unread (i : U5) (ws : List U5) (r : Sampler) (i' : U5) (k : U4) :
    scanWindows (i :: ws) { r with i := i', k := k } = scanWindows (i :: ws) r := by
  have hw : takeWindow { r with i := i, k := k } = takeWindow { r with i := i } :=
    takeWindow_k_unread { r with i := i } k
  simp only [scanWindows, hw]

/-- A SAMPLE reads no sampler register that it has not written: it starts by clearing `a`, `c` and `m`. -/
theorem sampleDraws_cleared (n : Nat) (C : Context) (r r' : Sampler) :
    sampleDraws (n + 1) C (cleared r) = sampleDraws (n + 1) C (cleared r') := by
  have empty : ∀ q : Sampler, (cleared q).m < 32 := fun q => (Collected.cleared q).lt.2 (by decide)
  have draw : drawAndScan C (cleared r) = drawAndScan C (cleared r') := by
    unfold drawAndScan
    exact congrArg (Prod.mk _) (scanWindows_ik_unread 0 _ { cleared r' with j := (genStep C).2 } r.i r.k)
  rw [sampleDraws_more (empty r), sampleDraws_more (empty r'), draw]

/-- The two states agree on what the SAMPLE of the half `h` and the stages after it read, the sampler registers
apart. -/
def sampleAlike (h : Half) (u v : State) : Prop :=
  sameSurroundings u v ∧ u.t = v.t ∧ (h = .low → u.orch.high = v.orch.high)

theorem LiveAlike.sample {u v : State} (h : LiveAlike u v) {half : Half} {st : SampleStage}
    (hph : u.ph = .drvSample half st) : sampleAlike half u v := by
  have ht := h.t
  have horch := h.orch
  rw [hph] at ht horch
  refine ⟨h.surroundings, ht, ?_⟩
  rintro rfl
  exact (congrArg Orchestrator.high horch :)

theorem sampleAlike.alike {half : Half} {st : SampleStage} {u v : State} (h : sampleAlike half u v)
    (hu : u.ph = .drvSample half st) (hv : v.ph = .drvSample half st)
    (hsmp : liveSampler (.drvSample half st) u.smp = liveSampler (.drvSample half st) v.smp) : LiveAlike u v := by
  obtain ⟨hs, ht, hhigh⟩ := h
  refine hs.alike rfl hu hv ht hsmp ?_
  cases half with
  | high => rfl
  | low => simp only [liveOrchestrator, hhigh rfl]

theorem sampleAlike.finishHalf {half : Half} {u v : State} (h : sampleAlike half u v) (ha : u.smp.a = v.smp.a) :
    LiveAlike (finishHalf half u) (finishHalf half v) := by
  obtain ⟨hs, ht, hhigh⟩ := h
  cases half with
  | high => exact sampleAlike.alike (half := .low) ⟨hs, ht, fun _ => ha⟩ rfl rfl rfl
  | low =>
    refine sameSurroundings.alike (p := .drvPack) hs rfl rfl rfl rfl rfl ?_
    show ({ high := u.orch.high, low := u.smp.a, .. } : Orchestrator) = { high := v.orch.high, low := v.smp.a, .. }
    rw [hhigh rfl, ha]

theorem sampleAlike.afterDraws {half : Half} {u v : State} (h : sampleAlike half u v) (hsmp : u.smp = v.smp) :
    LiveAlike (afterDraws half u) (afterDraws half v) := by
  by_cases hm : u.smp.m < 32
  · rw [afterDraws_more hm, afterDraws_more (hsmp ▸ hm)]
    exact sampleAlike.alike (half := half) h rfl rfl (congrArg (liveSampler _) hsmp)
  · rw [afterDraws_full hm, afterDraws_full (hsmp ▸ hm)]
    exact h.finishHalf (congrArg Sampler.a hsmp)

/-- The stage SMP_SCAN. -/
theorem sampleAlike.scanStage {half : Half} {u v : State} (h : sampleAlike half u v)
    (hu : u.ph = .drvSample half .scan) (hv : v.ph = .drvSample half .scan)
    (hw : takeWindow u.smp = takeWindow v.smp) : LiveAlike (scanStage half u) (scanStage half v) := by
  by_cases hl : (takeWindow u.smp).m = 32 ∨ (takeWindow u.smp).i = 28
  · rw [scanStage_last hl, scanStage_last (hw ▸ hl), ← hw]
    exact sampleAlike.afterDraws (u := u.setSmp _) (v := v.setSmp _) h rfl
  · obtain ⟨hm, hi⟩ := not_or.1 hl
    rw [scanStage_next half u hm hi, scanStage_next half v (hw ▸ hm) (hw ▸ hi), ← hw]
    exact sampleAlike.alike (u := u.setSmp _) (v := v.setSmp _) h hu hv rfl

/-- The stages of SAMPLE. -/
theorem LiveAlike.sampleStage {half : Half} {st : SampleStage} {u v : State} (h : LiveAlike u v)
    (hu : u.ph = .drvSample half st) : LiveAlike (sampleStage half st u) (sampleStage half st v) := by
  have hv : v.ph = .drvSample half st := h.ph ▸ hu
  obtain ⟨hs, ht, hhigh⟩ := h.sample hu
  have hsmp := h.smp
  rw [hu] at hsmp
  cases st with
  | clear => exact sampleAlike.alike (half := half) ⟨hs, ht, hhigh⟩ rfl rfl rfl
  | drawSquare => exact sampleAlike.alike (half := half) ⟨hs, congrArg stepSquare ht, hhigh⟩ rfl rfl hsmp
  | drawWeyl => exact sampleAlike.alike (half := half) ⟨hs, congrArg stepWeyl ht, hhigh⟩ rfl rfl hsmp
  | drawSum => exact sampleAlike.alike (half := half) ⟨hs, congrArg stepSum ht, hhigh⟩ rfl rfl hsmp
  | drawRotate => exact sampleAlike.alike (half := half) ⟨hs, congrArg stepRotate ht, hhigh⟩ rfl rfl hsmp
  | drawOut =>
    refine sampleAlike.alike (half := half) ⟨hs, ht, hhigh⟩ rfl rfl ?_
    show liveSampler (.drvSample half .scan) { u.smp with j := stepOut u.t, i := 0 } =
      liveSampler (.drvSample half .scan) { v.smp with j := stepOut v.t, i := 0 }
    rw [← ht]
    exact (congrArg (fun r : Sampler => { r with j := stepOut u.t, i := 0 }) hsmp :)
  | scan => exact sampleAlike.scanStage ⟨hs, ht, hhigh⟩ hu hv (congrArg takeWindow hsmp :)

/-! ### The stages -/

theorem LiveAlike.respondSeed {u v : State} (h : LiveAlike u v) (hu : u.ph = .drvPack) :
    LiveAlike (respondSeed u) (respondSeed v) := by
  have horch := h.orch
  rw [hu] at horch
  have hhigh : u.orch.high = v.orch.high := (congrArg Orchestrator.high horch :)
  have hlow : u.orch.low = v.orch.low := (congrArg Orchestrator.low horch :)
  unfold Machine.respondSeed
  rw [hhigh, hlow]
  exact h.surroundings.respond _ _

/-- The stages of DERIVE_SEED that write the orchestrator registers `f` computes, from those live at their stage. -/
theorem LiveAlike.orchestrate {u v : State} (h : LiveAlike u v) (f : Orchestrator → Orchestrator) {p : Phase}
    (hp : readsG p = false) (ht : ∀ C, liveT p C = ⟨0, 0, 0⟩) (hsmp : ∀ r, liveSampler p r = ⟨0, 0, 0, 0, 0, 0⟩)
    (hf : ∀ o, liveOrchestrator p (f (liveOrchestrator u.ph o)) = liveOrchestrator p (f o)) :
    LiveAlike ((u.setOrch (f u.orch)).setPh p) ((v.setOrch (f v.orch)).setPh p) := by
  refine sameSurroundings.alike (p := p) h.surroundings hp rfl rfl (by rw [ht, ht]) (by rw [hsmp, hsmp]) ?_
  show liveOrchestrator p (f u.orch) = liveOrchestrator p (f v.orch)
  rw [← hf u.orch, h.orch, hf]

/-- A stage reads live registers only. -/
theorem LiveAlike.stage {u v : State} (h : LiveAlike u v) : LiveAlike (stage u) (stage v) := by
  have hs := h.surroundings
  have hph := h.ph
  cases hu : u.ph <;> rw [hu] at hph <;> have hv := hph.symm
  case idle => rw [stage_idle ((State.ready_iff u).2 hu), stage_idle ((State.ready_iff v).2 hv)]; exact h
  case conCheck seed =>
    cases ho : isOdd seed with
    | false => rw [stage_conCheck_even hu ho, stage_conCheck_even hv ho]; exact hs.respond _ _
    | true =>
      rw [stage_conCheck_odd hu ho, stage_conCheck_odd hv ho]
      exact sameSurroundings.alike (p := .conInit seed) hs rfl rfl rfl rfl rfl rfl
  case conInit seed => rw [stage_conInit hu, stage_conInit hv]; exact hs.initGenerator seed
  case advCheck =>
    have hgv := h.gv
    cases hc : u.gv with
    | false => rw [stage_advCheck_invalid hu hc, stage_advCheck_invalid hv (hgv ▸ hc)]; exact hs.respond _ _
    | true =>
      rw [stage_advCheck_valid hu hc, stage_advCheck_valid hv (hgv ▸ hc)]
      exact ⟨hgv, rfl, h.inbox, h.sent, fun _ => h.g ((liveG_iff u).2 (.inl hc)), rfl, rfl, rfl⟩
  case advSquare => rw [stage_advSquare hu, stage_advSquare hv]; exact h.advance (by rw [hu]; rfl) stepSquare rfl
  case advWeyl => rw [stage_advWeyl hu, stage_advWeyl hv]; exact h.advance (by rw [hu]; rfl) stepWeyl rfl
  case advSum => rw [stage_advSum hu, stage_advSum hv]; exact h.advance (by rw [hu]; rfl) stepSum rfl
  case advRotate => rw [stage_advRotate hu, stage_advRotate hv]; exact h.advance (by rw [hu]; rfl) stepRotate rfl
  case advOut =>
    have hg : u.g = v.g := h.g ((liveG_iff u).2 (.inr (by rw [hu]; rfl)))
    rw [stage_advOut hu, stage_advOut hv, hg]
    exact hs.respond _ _
  case drvSplit =>
    rw [stage_drvSplit hu, stage_drvSplit hv]
    exact h.orchestrate splitIndex rfl (fun _ => rfl) (fun _ => rfl) fun o => by
      simp only [hu, liveOrchestrator, splitIndex_bucket, splitIndex_offset]
  case drvLut =>
    rw [stage_drvLut hu, stage_drvLut hv]
    exact h.orchestrate selectEntry rfl (fun _ => rfl) (fun _ => rfl) fun o => by
      simp only [hu, liveOrchestrator, selectEntry_bucket, selectEntry_offset, selectEntry_tseed]
  case drvB2 =>
    rw [stage_drvB2 hu, stage_drvB2 hv]
    exact h.orchestrate countCycles rfl (fun _ => rfl) (fun _ => rfl) fun o => by
      simp only [hu, liveOrchestrator, countCycles_offset, countCycles_tseed, countCycles_bucket2]
  case drvInit =>
    rw [stage_drvInit hu, stage_drvInit hv]
    exact h.orchestrate startValue rfl (fun _ => rfl) (fun _ => rfl) fun o => by
      simp only [hu, liveOrchestrator, startValue_tseed, startValue_initial]
  case drvLoad =>
    have horch := h.orch
    rw [hu] at horch
    have ht : loadedContext u.orch = loadedContext v.orch := (congrArg loadedContext horch :)
    rw [stage_drvLoad hu, stage_drvLoad hv]
    exact sampleAlike.alike (half := .high) ⟨hs, ht, nofun⟩ rfl rfl rfl
  case drvSample half st => rw [stage_drvSample hu, stage_drvSample hv]; exact h.sampleStage hu
  case drvPack => rw [stage_drvPack hu, stage_drvPack hv]; exact h.respondSeed hu

/-! ### The commands -/

/-- A SAMPLE carried out in one step. -/
theorem sampleAlike.runHalf {half : Half} {u v : State} (h : sampleAlike half u v) :
    LiveAlike (runHalf half u) (runHalf half v) := by
  obtain ⟨hs, ht, hhigh⟩ := h
  have hd : sampleDraws Config.drawsPerStep u.t (cleared u.smp) =
      sampleDraws Config.drawsPerStep v.t (cleared v.smp) := by
    rw [ht]
    exact sampleDraws_cleared 63 v.t u.smp v.smp
  rw [runHalf_eq_afterDraws, runHalf_eq_afterDraws, hd]
  exact sampleAlike.afterDraws (u := (u.setT _).setSmp _) (v := (v.setT _).setSmp _) ⟨hs, rfl, hhigh⟩ rfl

theorem afterHigh_unfinished {s : State} (h : s.ph ≠ .drvSample .low .clear) : afterHigh s = s := if_neg h

theorem afterHigh_busy {s : State} (h : s.ph = .drvSample .low .clear) (hp : (runHalf .low s).ph ≠ .drvPack) :
    afterHigh s = runHalf .low s := (if_pos h).trans (if_neg hp)

theorem afterHigh_answers {s : State} (h : s.ph = .drvSample .low .clear) (hp : (runHalf .low s).ph = .drvPack) :
    afterHigh s = respondSeed (runHalf .low s) := (if_pos h).trans (if_pos hp)

theorem LiveAlike.afterHigh {u v : State} (h : LiveAlike u v) : LiveAlike (afterHigh u) (afterHigh v) := by
  have hph := h.ph
  by_cases hu : u.ph = .drvSample .low .clear
  · have low := (h.sample hu).runHalf
    have hlow := low.ph
    by_cases hp : (Machine.runHalf .low u).ph = .drvPack
    · rw [afterHigh_answers hu hp, afterHigh_answers (hph ▸ hu) (hlow ▸ hp)]; exact low.respondSeed hp
    · rw [afterHigh_busy hu hp, afterHigh_busy (hph ▸ hu) (hlow ▸ hp)]; exact low
  · rw [afterHigh_unfinished hu, afterHigh_unfinished (hph ▸ hu)]; exact h

/-- A DERIVE_SEED carried out in one step starts from its index alone (42_seed_deriver.md R71 (a)). -/
theorem sameSurroundings.derive {u v : State} (h : sameSurroundings u v) (index : U64) :
    LiveAlike (derive index u) (derive index v) := by
  have prepared : sampleAlike .high (prepareSampling index u) (prepareSampling index v) :=
    ⟨h, by rw [prepareSampling_t, prepareSampling_t], nofun⟩
  exact prepared.runHalf.afterHigh

/-- A command carried out in one step. -/
theorem LiveAlike.exec {i : Instr} {u v u' v' : State} (h : LiveAlike u v) (hu : u.ready = true)
    (eu : exec i u = .next u') (ev : exec i v = .next v') : LiveAlike u' v' := by
  have hs := h.surroundings
  have hgv := h.gv
  have hv : v.ready = true := by simpa only [State.ready, h.ph] using hu
  cases i with
  | illegal => rw [exec_illegal hu] at eu; rw [exec_illegal hv] at ev; cases eu; cases ev; exact hs.respond _ _
  | construct seed =>
    cases ho : isOdd seed with
    | false =>
      rw [exec_construct_even hu ho] at eu; rw [exec_construct_even hv ho] at ev
      cases eu; cases ev; exact hs.respond _ _
    | true =>
      rw [exec_construct_odd hu ho] at eu; rw [exec_construct_odd hv ho] at ev
      cases eu; cases ev; exact hs.initGenerator seed
  | advance =>
    cases hc : u.gv with
    | false =>
      rw [exec_advance_invalid hu hc] at eu; rw [exec_advance_invalid hv (hgv ▸ hc)] at ev
      cases eu; cases ev; exact hs.respond _ _
    | true =>
      have hg : u.g = v.g := h.g ((liveG_iff u).2 (.inl hc))
      rw [exec_advance_valid hu hc] at eu; rw [exec_advance_valid hv (hgv ▸ hc), ← hg] at ev
      cases eu; cases ev
      exact sameSurroundings.respond (u := u.setG (genStep u.g).1) (v := v.setG (genStep u.g).1)
        ⟨hgv, h.inbox, h.sent, fun _ => rfl⟩ _ _
  | deriveSeed index =>
    rw [exec_deriveSeed hu] at eu; rw [exec_deriveSeed hv] at ev
    cases eu; cases ev; exact hs.derive index

/-- Acceptance of a command in the finer grain. -/
theorem LiveAlike.accept {u v : State} (h : LiveAlike u v) (i : Instr) : LiveAlike (accept i u) (accept i v) := by
  have hs := h.surroundings
  cases i with
  | illegal => exact hs.respond _ _
  | construct seed => exact sameSurroundings.alike (p := .conCheck seed) hs rfl rfl rfl rfl rfl rfl
  | advance => exact sameSurroundings.alike (p := .advCheck) hs rfl rfl rfl rfl rfl rfl
  | deriveSeed index => exact sameSurroundings.alike (p := .drvSplit) hs rfl rfl rfl rfl rfl rfl

theorem LiveAlike.setInbox {u v : State} (h : LiveAlike u v) (l : List HostEvent) :
    LiveAlike (u.setInbox l) (v.setInbox l) := ⟨h.gv, h.ph, rfl, h.sent, h.g, h.t, h.smp, h.orch⟩

theorem LiveAlike.resetEvent {u v : State} (h : LiveAlike u v) : LiveAlike u.resetEvent v.resetEvent :=
  ⟨rfl, rfl, h.inbox, h.sent, fun _ => rfl, rfl, rfl, rfl⟩

/-- A step reads live registers only. -/
theorem LiveAlike.step {u v u' v' : State} (h : LiveAlike u v) (eu : step u = .next u') (ev : step v = .next v') :
    LiveAlike u' v' := by
  have hinbox := h.inbox
  have hready : u.ready = v.ready := by simp only [State.ready, h.ph]
  obtain ⟨hi, rfl⟩ | ⟨rest, hi, rfl⟩ | ⟨rest, hi, rfl⟩ | ⟨c, rest, hi, hr, e⟩ | ⟨c, rest, hi, hr, rfl⟩ |
    ⟨c, rest, hi, hr, rfl⟩ := step_cases eu
  · rw [step_nil (hinbox ▸ hi)] at ev; cases ev; exact h.stage
  · rw [step_wait (hinbox ▸ hi)] at ev; cases ev; exact (h.setInbox rest).stage
  · rw [step_reset (hinbox ▸ hi)] at ev; cases ev; exact (h.setInbox rest).resetEvent
  · rw [step_command (hinbox ▸ hi) (hready ▸ hr)] at ev; exact (h.setInbox rest).exec hr e ev
  · rw [step_start (hinbox ▸ hi) (hready ▸ hr)] at ev; cases ev; exact (h.setInbox rest).accept _
  · rw [step_busy (hinbox ▸ hi) (hready ▸ hr)] at ev; cases ev; exact h.stage

/-- Settles O46: steps keep `LiveAlike`, and states that are alike have delivered the same responses. -/
theorem noResponseDependsOnUnspecifiedRegisters : Obligations.NoResponseDependsOnUnspecifiedRegisters := by
  intro s t h
  obtain ⟨s', hs⟩ := step_answers s
  obtain ⟨t', ht⟩ := step_answers t
  have alike := ((livePart_eq_iff s t).1 h).step hs ht
  exact ⟨s', t', hs, ht, (livePart_eq_iff s' t').2 alike, alike.sent⟩

end Sys2Proof.Machine
end

section
/-! The two grains of R18: a command run one stage a step reaches the state that `exec` answers (10_state.md R18), and
a command other than DERIVE_SEED within six stages (41_generator.md R62, 70_reset_and_hazards.md R99). -/

namespace Sys2Proof.Machine

/-! ### Runs of stages -/

/-- With nothing presented, a run is a run of stages. -/
theorem runFor_stages (n : Nat) : ∀ {s : State}, s.inbox = [] → runFor n s = .next (stage^[n] s) := by
  induction n with
  | zero => intro s _; exact runFor_zero s
  | succ n ih =>
    intro s h
    rw [runFor_succ (step_nil h), ih ((stage_inbox s).trans h), Function.iterate_succ_apply]

theorem accept_inbox (i : Instr) (s : State) : (accept i s).inbox = s.inbox := by cases i <;> rfl

/-- A word accepted in the finer grain: one step of acceptance, then stages. -/
theorem runFor_start (n : Nat) (c : CmdWord) {s : State} (hr : s.ready = true) (hi : s.inbox = []) :
    runFor (n + 1) (s.setInbox [.start c]) = .next (stage^[n] (accept (decode c) s)) := by
  have hs : (s.setInbox [.start c]).setInbox [] = s := State.ext_fields rfl rfl rfl rfl rfl rfl hi.symm rfl
  have hstep : step (s.setInbox [.start c]) = .next (accept (decode c) s) := by
    rw [step_start (s := s.setInbox [.start c]) rfl hr, hs]
  rw [runFor_succ hstep, runFor_stages n ((accept_inbox _ s).trans hi)]

/-- A run of stages, one stage at a time. -/
theorem iterate_stage_cons {n : Nat} {s t u : State} (first : stage s = t) (rest : stage^[n] t = u) :
    stage^[n + 1] s = u := by
  rw [Function.iterate_succ_apply, first, rest]

/-- Stages lead from `s` to `t`. -/
def reaches (s t : State) : Prop := ∃ n, stage^[n] s = t

theorem reaches_refl (s : State) : reaches s s := ⟨0, rfl⟩

theorem reaches.trans {s t u : State} (h : reaches s t) (h' : reaches t u) : reaches s u := by
  obtain ⟨m, rfl⟩ := h
  obtain ⟨n, rfl⟩ := h'
  exact ⟨n + m, Function.iterate_add_apply stage n m s⟩

theorem reaches_stage {s t : State} (h : stage s = t) : reaches s t := ⟨1, h⟩

/-- A ready engine stays as it is. -/
theorem iterate_stage_ready {s : State} (h : s.ready = true) (n : Nat) : stage^[n] s = s :=
  Function.iterate_fixed (stage_idle h) n

/-! ### The commands without a SAMPLE -/

/-- The first four stages of GenStep are its context (40_datapath_units.md R56), ... -/
theorem stages_genStep (C : Context) : stepRotate (stepSum (stepWeyl (stepSquare C))) = (genStep C).1 := rfl

/-- ... and the fifth its result. -/
theorem stepOut_genStep (C : Context) : stepOut (genStep C).1 = (genStep C).2 := rfl

/-- The five stages of a step of G are GenStep (40_datapath_units.md R56). -/
theorem stage_advance {s : State} (h : s.ph = .advSquare) :
    stage^[5] s = (s.setG (genStep s.g).1).respond .ok (zext64 (genStep s.g).2) :=
  iterate_stage_cons (stage_advSquare h) <| iterate_stage_cons (stage_advWeyl rfl) <|
    iterate_stage_cons (stage_advSum rfl) <| iterate_stage_cons (stage_advRotate rfl) <|
    iterate_stage_cons (stage_advOut rfl) <| by
      simp [stages_genStep, stepOut_genStep]

/-- A command other than DERIVE_SEED reaches the state that `exec` answers within six stages. -/
theorem accept_reaches_exec {i : Instr} {s : State} (hi : ∀ index, i ≠ .deriveSeed index) (hr : s.ready = true) :
    ∃ n ≤ 6, exec i s = .next (stage^[n] (accept i s)) := by
  cases i with
  | illegal => exact ⟨0, by decide, exec_illegal hr⟩
  | construct seed =>
    cases ho : isOdd seed with
    | false =>
      have run : stage^[1] (accept (.construct seed) s) = s.errorResponse .invalidSeed :=
        stage_conCheck_even (s := s.setPh (.conCheck seed)) rfl ho
      exact ⟨1, by decide, run ▸ exec_construct_even hr ho⟩
    | true =>
      have run : stage^[2] (accept (.construct seed) s) = initGenerator seed s :=
        iterate_stage_cons (stage_conCheck_odd (s := s.setPh (.conCheck seed)) rfl ho) <|
          iterate_stage_cons (stage_conInit rfl) rfl
      exact ⟨2, by decide, run ▸ exec_construct_odd hr ho⟩
  | advance =>
    cases hv : s.gv with
    | false =>
      have run : stage^[1] (accept .advance s) = s.errorResponse .notConstructed :=
        stage_advCheck_invalid (s := s.setPh .advCheck) rfl hv
      exact ⟨1, by decide, run ▸ exec_advance_invalid hr hv⟩
    | true =>
      have run : stage^[6] (accept .advance s) = (s.setG (genStep s.g).1).respond .ok (zext64 (genStep s.g).2) :=
        iterate_stage_cons (stage_advCheck_valid (s := s.setPh .advCheck) rfl hv) <| stage_advance rfl
      exact ⟨6, by decide, run ▸ exec_advance_valid hr hv⟩
  | deriveSeed index => exact absurd rfl (hi index)

/-- A command other than DERIVE_SEED, carried out in one step, answers one response. -/
theorem exec_responds {i : Instr} {s t : State} (hi : ∀ index, i ≠ .deriveSeed index) (hr : s.ready = true)
    (h : exec i s = .next t) : t.ready = true ∧ ∃ r, t.sent = r :: s.sent := by
  obtain ⟨st, rfl⟩ | ⟨seed, _, _, rfl⟩ | ⟨_, _, rfl⟩ | ⟨index, he, _⟩ := exec_cases hr h
  · exact ⟨rfl, _, rfl⟩
  · exact ⟨rfl, _, rfl⟩
  · exact ⟨rfl, _, rfl⟩
  · exact absurd he (hi index)

theorem decode_ne_deriveSeed {c : CmdWord} (h : c.toNat / 2 ^ 64 ≠ 3) (index : U64) : decode c ≠ .deriveSeed index := by
  rcases decode_of_op c with ⟨_, e⟩ | ⟨_, e⟩ | ⟨_, e⟩ | ⟨hop, _⟩
  · rw [e]; nofun
  · rw [e]; nofun
  · rw [e]; nofun
  · exact absurd ((opField_eq_iff c 3#2).1 hop) h

/-- Settles O48: the response comes within six stages, and the engine idles for the rest. -/
theorem shortCommandsRespond : Obligations.ShortCommandsRespond := by
  intro c s hr hi hc
  have hne := decode_ne_deriveSeed hc
  obtain ⟨n, hn, he⟩ := accept_reaches_exec hne hr
  obtain ⟨hready, r, hsent⟩ := exec_responds hne hr he
  refine ⟨_, r, ?_, hready, hsent⟩
  have split : stage^[6] (accept (decode c) s) = stage^[6 - n] (stage^[n] (accept (decode c) s)) := by
    rw [← Function.iterate_add_apply, Nat.sub_add_cancel hn]
  rw [runFor_start 6 c hr hi, split, iterate_stage_ready hready]

/-! ### SAMPLE stage by stage -/

/-- The window positions `ws` follow one another up to the last one, 28. -/
def consecutive : List U5 → Prop
  | [] => False
  | [i] => i = 28
  | i :: j :: rest => i ≠ 28 ∧ j = i + 4 ∧ consecutive (j :: rest)

theorem consecutive_windowPositions : consecutive windowPositions := by
  simp only [windowPositions, consecutive]
  decide

/-- The SMP_SCAN stages of a draw from the window `i` on are its window loop. -/
theorem scan_reaches (h : Half) (ws : List U5) : ∀ (i : U5) (s : State), consecutive (i :: ws) → s.smp.i = i →
    s.ph = .drvSample h .scan → reaches s (afterDraws h (s.setSmp (scanWindows (i :: ws) s.smp))) := by
  induction ws with
  | nil =>
    rintro i s hlast rfl hph
    have hscan : scanWindows [s.smp.i] s.smp = takeWindow s.smp := by
      show (if (takeWindow s.smp).m = 32 then takeWindow s.smp else takeWindow s.smp) = takeWindow s.smp
      exact ite_self _
    refine reaches_stage ?_
    rw [stage_scan hph, hscan]
    exact scanStage_last (.inr ((takeWindow_i _).trans hlast))
  | cons j ws ih =>
    rintro i s ⟨hne, rfl, hrest⟩ rfl hph
    have hi : (takeWindow s.smp).i ≠ 28 := by rw [takeWindow_i]; exact hne
    by_cases hm : (takeWindow s.smp).m = 32
    · have hscan : scanWindows (s.smp.i :: (s.smp.i + 4) :: ws) s.smp = takeWindow s.smp := if_pos hm
      refine reaches_stage ?_
      rw [stage_scan hph, hscan]
      exact scanStage_last (.inl hm)
    · have hscan : scanWindows (s.smp.i :: (s.smp.i + 4) :: ws) s.smp =
          scanWindows ((s.smp.i + 4) :: ws) (takeWindow s.smp) := if_neg hm
      have hnext := scanStage_next h s hm hi
      refine (reaches_stage ((stage_scan hph).trans hnext)).trans ?_
      rw [hscan]
      exact ih _ (s.setSmp { takeWindow s.smp with i := (takeWindow s.smp).i + 4 }) hrest
        (congrArg (· + 4) (takeWindow_i _)) hph

/-- The stages of one draw are the draw (40_datapath_units.md R56) and its window loop. -/
theorem draw_reaches {h : Half} {s : State} (hph : s.ph = .drvSample h .drawSquare) :
    reaches s (afterDraws h ((s.setT (drawAndScan s.t s.smp).1).setSmp (drawAndScan s.t s.smp).2)) := by
  have drawn : stage^[5] s = ((s.setT (genStep s.t).1).setSmp { s.smp with j := (genStep s.t).2, i := 0 }).setPh
      (.drvSample h .scan) :=
    iterate_stage_cons (stage_drawSquare hph) <| iterate_stage_cons (stage_drawWeyl rfl) <|
      iterate_stage_cons (stage_drawSum rfl) <| iterate_stage_cons (stage_drawRotate rfl) <|
      iterate_stage_cons (stage_drawOut rfl) <| by
        simp [stages_genStep, stepOut_genStep]
  exact reaches.trans ⟨5, drawn⟩ (scan_reaches h _ 0 _ consecutive_windowPositions rfl rfl)

/-- The draws of a SAMPLE, `n` of them at most. -/
theorem draws_reach (h : Half) (n : Nat) : ∀ s : State,
    reaches (afterDraws h s) (afterDraws h ((s.setT (sampleDraws n s.t s.smp).1).setSmp (sampleDraws n s.t s.smp).2)) := by
  induction n with
  | zero => intro s; exact reaches_refl _
  | succ n ih =>
    intro s
    by_cases hm : s.smp.m < 32
    · rw [sampleDraws_more hm, afterDraws_more hm]
      exact (draw_reaches (s := s.setPh (.drvSample h .drawSquare)) rfl).trans
        (ih ((s.setT (drawAndScan s.t s.smp).1).setSmp (drawAndScan s.t s.smp).2))
    · rw [sampleDraws_done hm]; exact reaches_refl _

/-- A SAMPLE from its stage SMP_CLEAR on. -/
theorem runHalf_reached {h : Half} {s : State} (hph : s.ph = .drvSample h .clear) : reaches s (runHalf h s) := by
  have hclear : stage s = afterDraws h (s.setSmp (cleared s.smp)) := by
    rw [stage_smpClear hph, afterDraws_more ((Collected.cleared s.smp).lt.2 (by decide))]
  exact (reaches_stage hclear).trans (draws_reach h Config.drawsPerStep (s.setSmp (cleared s.smp)))

/-! ### DERIVE_SEED stage by stage -/

/-- The stages that compute the orchestrator registers. -/
theorem stage_orchestrate {s : State} (h : s.ph = .drvSplit) :
    stage^[4] s = (s.setOrch (startValue (countCycles (selectEntry (splitIndex s.orch))))).setPh .drvLoad :=
  iterate_stage_cons (stage_drvSplit h) <| iterate_stage_cons (stage_drvLut rfl) <|
    iterate_stage_cons (stage_drvB2 rfl) <| iterate_stage_cons (stage_drvInit rfl) <| by
      simp

/-- The stages before the first SAMPLE. -/
theorem prepareSampling_reached (index : U64) (s : State) :
    reaches (accept (.deriveSeed index) s) ((prepareSampling index s).setPh (.drvSample .high .clear)) :=
  reaches.trans ⟨4, stage_orchestrate rfl⟩ (reaches_stage (stage_drvLoad rfl))

/-- A DERIVE_SEED reaches the state that `exec` answers. -/
theorem derive_reached (index : U64) (s : State) : reaches (accept (.deriveSeed index) s) (derive index s) := by
  have first : reaches (accept (.deriveSeed index) s) (runHalf .high (prepareSampling index s)) :=
    (prepareSampling_reached index s).trans (runHalf_reached (h := .high) rfl)
  rcases derive_cases index s with ⟨_, e⟩ | ⟨hph, _, e⟩ | ⟨hph, hpack, e⟩
  · rw [e]; exact first
  · rw [e]; exact first.trans (runHalf_reached hph)
  · rw [e]; exact (first.trans (runHalf_reached hph)).trans (reaches_stage (stage_drvPack hpack))

/-- Every command reaches the state that `exec` answers, in whatever number of stages. -/
theorem accept_reaches (i : Instr) {s : State} (hr : s.ready = true) :
    ∃ n, exec i s = .next (stage^[n] (accept i s)) := by
  by_cases hi : ∃ index, i = .deriveSeed index
  · obtain ⟨index, rfl⟩ := hi
    obtain ⟨n, hn⟩ := derive_reached index s
    exact ⟨n, hn ▸ exec_deriveSeed hr index⟩
  · obtain ⟨n, _, he⟩ := accept_reaches_exec (not_exists.1 hi) hr
    exact ⟨n, he⟩

/-- Settles O47: every command's stages reach the state that `exec` answers. -/
theorem stageByStageEqualsTransaction : Obligations.StageByStageEqualsTransaction := by
  intro c s hr hi
  obtain ⟨n, he⟩ := accept_reaches (decode c) hr
  exact ⟨n + 1, _, he, runFor_start n c hr hi⟩

end Sys2Proof.Machine
end

section
/-! The LUT (20_memory.md R26, R27). -/

namespace Sys2Proof.Machine

/-- R26: the load reads the configured table. -/
theorem lut_eq_table (e : Fin 30) : lut e = Config.table e := rfl

/-- R6 (a): the one entry that the configuration fixes. -/
theorem table_zero : Config.table 0 = Config.table0 := if_pos rfl

/-- Settles O51: a read is the table's entry, odd by `table_odd` (the premise of R6, log 5). -/
theorem lutEntriesAreOdd : Obligations.LutEntriesAreOdd := by
  refine ⟨fun e => ⟨lut_eq_table e, ?_⟩, ?_⟩
  · rw [lut_eq_table]; exact table_odd e
  · rw [lut_eq_table, table_zero]; rfl

end Sys2Proof.Machine
end

section
/-! Command and response words (30_encoding.md R37, R38, R46): `decode` said once as an equivalence per row, `encode` its
inverse on canonical words, the response format, and the numbers that are words. -/

namespace Sys2Proof.Machine

/-! ### The fields of a word -/

/-- A word is determined by its two fields. -/
theorem word_ext {c d : CmdWord} (hop : opField c = opField d) (harg : c.setWidth 64 = d.setWidth 64) : c = d := by
  rw [← commandWord_fields c, ← commandWord_fields d, hop, harg]

/-! ### Decoding, one equivalence per row (R46) -/

theorem decode_eq_illegal_iff (c : CmdWord) : decode c = .illegal ↔ opField c = 0b00#2 := by
  rcases decode_of_op c with ⟨hop, e⟩ | ⟨hop, e⟩ | ⟨hop, e⟩ | ⟨hop, e⟩ <;> simp [hop, e]

theorem decode_eq_construct_iff (c : CmdWord) (seed : U64) :
    decode c = .construct seed ↔ opField c = 0b01#2 ∧ c.setWidth 64 = seed := by
  rcases decode_of_op c with ⟨hop, e⟩ | ⟨hop, e⟩ | ⟨hop, e⟩ | ⟨hop, e⟩ <;> simp [hop, e]

theorem decode_eq_advance_iff (c : CmdWord) : decode c = .advance ↔ opField c = 0b10#2 := by
  rcases decode_of_op c with ⟨hop, e⟩ | ⟨hop, e⟩ | ⟨hop, e⟩ | ⟨hop, e⟩ <;> simp [hop, e]

theorem decode_eq_deriveSeed_iff (c : CmdWord) (index : U64) :
    decode c = .deriveSeed index ↔ opField c = 0b11#2 ∧ c.setWidth 64 = index := by
  rcases decode_of_op c with ⟨hop, e⟩ | ⟨hop, e⟩ | ⟨hop, e⟩ | ⟨hop, e⟩ <;> simp [hop, e]

/-- Two words of one command have the same `op`, and the same `arg` unless the row ignores it (R46). -/
theorem decode_injective_up_to_arg {c d : CmdWord} (h : decode c = decode d) :
    c = d ∨ opField c = opField d ∧ (opField c = 0b00#2 ∨ opField c = 0b10#2) := by
  rcases decode_of_op c with ⟨hop, e⟩ | ⟨hop, e⟩ | ⟨hop, e⟩ | ⟨hop, e⟩ <;> rw [e] at h
  · exact .inr ⟨hop.trans ((decode_eq_illegal_iff d).1 h.symm).symm, .inl hop⟩
  · obtain ⟨hopd, harg⟩ := (decode_eq_construct_iff d _).1 h.symm
    exact .inl (word_ext (hop.trans hopd.symm) harg.symm)
  · exact .inr ⟨hop.trans ((decode_eq_advance_iff d).1 h.symm).symm, .inr hop⟩
  · obtain ⟨hopd, harg⟩ := (decode_eq_deriveSeed_iff d _).1 h.symm
    exact .inl (word_ext (hop.trans hopd.symm) harg.symm)

/-! ### Encoding (R46; the reserved code: log 14) -/

/-- What `encode` writes, for every command. -/
theorem encode_statement (i : Instr) : Laws.Canonical.Statement i := by
  cases i with
  | illegal => exact Laws.Canonical.illegal
  | construct seed => exact Laws.Canonical.construct seed
  | advance => exact Laws.Canonical.advance
  | deriveSeed index => exact Laws.Canonical.deriveSeed index

theorem isCanonical_encode (i : Instr) : isCanonical (encode i) = true := (encode_statement i).1

theorem decode_encode (i : Instr) : decode (encode i) = i := by
  cases i with
  | illegal => exact (decode_eq_illegal_iff _).2 (opField_commandWord _ _)
  | construct seed =>
    exact (decode_eq_construct_iff _ seed).2 ⟨opField_commandWord _ _, setWidth_commandWord _ _⟩
  | advance => exact (decode_eq_advance_iff _).2 (opField_commandWord _ _)
  | deriveSeed index =>
    exact (decode_eq_deriveSeed_iff _ index).2 ⟨opField_commandWord _ _, setWidth_commandWord _ _⟩

/-- A canonical word, the all-zero word among them, is the one that `encode` writes for its command. -/
theorem encode_decode {c : CmdWord} (h : isCanonical c = true) : encode (decode c) = c := by
  have fields := commandWord_fields c
  have harg := (isCanonical_iff c).1 h
  rcases decode_of_op c with ⟨hop, e⟩ | ⟨hop, e⟩ | ⟨hop, e⟩ | ⟨hop, e⟩ <;> rw [e] <;> rw [hop] at fields
  · rw [harg (.inl hop)] at fields; exact fields
  · exact fields
  · rw [harg (.inr hop)] at fields; exact fields
  · exact fields

/-! ### The statements about command words -/

/-- Settles O3: the fields of a word are its quarter and its low 64 bits. -/
theorem decodeEncodeRoundTrip : Obligations.DecodeEncodeRoundTrip := by
  refine ⟨fun c => ⟨fun h => ?_, fun h => ?_, fun h => ?_, fun h => ?_, ?_⟩, fun c d h => ?_, rfl,
    commandWord_toNat 0b01#2, commandWord_toNat 0b11#2, fun i _ _ => ⟨isCanonical_encode i, decode_encode i⟩,
    fun c h _ => encode_decode h⟩
  · exact (decode_eq_illegal_iff c).2 ((opField_eq_iff c _).2 h)
  · exact (decode_eq_construct_iff c _).2 ⟨(opField_eq_iff c _).2 h, (BitVec.ofNat_toNat 64 c).symm⟩
  · exact (decode_eq_advance_iff c).2 ((opField_eq_iff c _).2 h)
  · exact (decode_eq_deriveSeed_iff c _).2 ⟨(opField_eq_iff c _).2 h, (BitVec.ofNat_toNat 64 c).symm⟩
  · have := c.isLt
    omega
  · rw [← opField_toNat, ← opField_toNat]
    obtain heq | ⟨hop, hrow⟩ := decode_injective_up_to_arg h
    · exact .inl heq
    · exact .inr ⟨congrArg BitVec.toNat hop, hrow.imp (congrArg BitVec.toNat) (congrArg BitVec.toNat)⟩

/-- Settles O1: the words of 95_test_vectors.md V3.1, evaluated. -/
theorem writtenOutWordsDecode : Obligations.WrittenOutWordsDecode := by
  unfold Obligations.WrittenOutWordsDecode
  decide

/-- Settles O2: the mask keeps `op` alone, and `op` has four values. -/
theorem decodeByMatchAndMask : Obligations.DecodeByMatchAndMask := by
  intro c
  refine ⟨(mask_eq_iff_opField c 0b00#2).trans (decode_eq_illegal_iff c).symm, ?_,
    (mask_eq_iff_opField c 0b10#2).trans (decode_eq_advance_iff c).symm, ?_, ?_⟩
  · rw [decode_eq_construct_iff, and_iff_left rfl]
    exact mask_eq_iff_opField c 0b01#2
  · rw [decode_eq_deriveSeed_iff, and_iff_left rfl]
    exact mask_eq_iff_opField c 0b11#2
  · exact (decode_of_op c).imp And.right (.imp And.right (.imp And.right And.right))

/-- Settles O4: the reserved code is one more canonical word (log 14). -/
theorem reservedSpellingRoundTrip : Obligations.ReservedSpellingRoundTrip :=
  ⟨rfl, decode_encode .illegal, fun _ h _ => encode_decode h⟩

/-! ### Response words (R38, 60_exceptions.md R79): built of the same two fields as command words -/

theorem responseWord_eq (r : Response) : responseWord r = commandWord (statusCode r.status) r.data := rfl

theorem responseOfWord_data (w : RspWord) : (responseOfWord w).data = w.setWidth 64 := argField_eq w

theorem statusCode_responseOfWord (w : RspWord) : statusCode (responseOfWord w).status = opField w := by
  rcases op_cases (opField w) with h | h | h | h <;> rw [h] <;> rw [opField] at h <;>
    simp [responseOfWord, statusCode, h]

theorem statusCode_injective : ∀ a b : Status, statusCode a = statusCode b → a = b := by
  intro a b; cases a <;> cases b <;> decide

/-- Every word is the word of the response it is. -/
theorem responseWord_responseOfWord (w : RspWord) : responseWord (responseOfWord w) = w := by
  rw [responseWord_eq, statusCode_responseOfWord, responseOfWord_data, commandWord_fields]

/-- A response is read back from its word. -/
theorem responseOfWord_responseWord (r : Response) : responseOfWord (responseWord r) = r := by
  have hstatus : (responseOfWord (responseWord r)).status = r.status :=
    statusCode_injective _ _ ((statusCode_responseOfWord _).trans (opField_commandWord _ _))
  have hdata : (responseOfWord (responseWord r)).data = r.data :=
    (responseOfWord_data _).trans (setWidth_commandWord _ _)
  calc responseOfWord (responseWord r)
      = ⟨(responseOfWord (responseWord r)).status, (responseOfWord (responseWord r)).data⟩ := rfl
    _ = r := by rw [hstatus, hdata]

/-- Settles O5: both directions, and the word as a number. -/
theorem responseWordsRoundTrip : Obligations.ResponseWordsRoundTrip := by
  refine ⟨responseOfWord_responseWord, responseWord_responseOfWord, fun d => ?_⟩
  simp only [responseWord_eq, commandWord_toNat]
  exact ⟨Nat.zero_add _, rfl, rfl, rfl⟩

/-! ### Numbers as words (R37, R42; log 16) -/

theorem decodeNumber_word {n : Nat} (h : n < 2 ^ 66) : decodeNumber n = .ok (decode (BitVec.ofNat 66 n)) :=
  if_pos (decide_eq_true h)

theorem decodeNumber_wide {n : Nat} (h : 2 ^ 66 ≤ n) : decodeNumber n = .error .widerThanACommandWord :=
  if_neg fun hw => absurd (of_decide_eq_true hw) (Nat.not_lt.2 h)

theorem decodeTableWord_word {nbits w : Nat} (hb : w < 2 ^ nbits) (h : w < 2 ^ 66) :
    decodeTableWord nbits w = some (decode (BitVec.ofNat 66 w)) := by
  rw [decodeTableWord, Nat.mod_eq_of_lt hb, decodeNumber_word h]

theorem decodeTableWord_wide {nbits w : Nat} (hb : w < 2 ^ nbits) (h : 2 ^ 66 ≤ w) :
    decodeTableWord nbits w = none := by
  rw [decodeTableWord, Nat.mod_eq_of_lt hb, decodeNumber_wide h]

/-- Settles O6: the two ranges of a number. -/
theorem tableWordsDecode : Obligations.TableWordsDecode := fun _ _ =>
  ⟨decodeTableWord_word, fun hb h => ⟨decodeNumber_wide h, decodeTableWord_wide hb h⟩⟩

end Sys2Proof.Machine
end

section
/-! The command port (30_encoding.md R36, R43): a ready engine runs the command presented, a busy one accepts nothing,
and every accepted command is answered once. -/

namespace Sys2Proof.Machine

/-- A word presented with `presentWord` runs in the next step. -/
theorem step_presentWord (s : State) (c : CmdWord) : step (s.presentWord c) = exec (decode c) (s.setPh .idle) :=
  step_command (s := s.presentWord c) rfl rfl

theorem withFetchWord_eq {nbits w : Nat} (s : State) (hb : w < 2 ^ nbits) :
    s.withFetchWord nbits w = s.presentWord (BitVec.ofNat 66 w) := by
  rw [State.withFetchWord, Nat.mod_eq_of_lt hb]

/-- Settles O38: the equations of `step` for what the host presents. -/
theorem stepRunsTheDecodedCommand : Obligations.StepRunsTheDecodedCommand := by
  refine ⟨fun s c rest hr hi => step_command hi hr, fun s nbits w hb h => ?_, fun s c rest hr hi => step_start hi hr,
    fun s rest hi => step_wait hi⟩
  exact ⟨_, decodeTableWord_word hb h, withFetchWord_eq s hb ▸ step_presentWord s _⟩

/-- Settles O39: the step is the stage, which does not read the tape. -/
theorem busyEngineAcceptsNothing : Obligations.BusyEngineAcceptsNothing := by
  refine fun s c rest hr => ⟨fun hi => ⟨_, step_busy hi hr, rfl, stage_inbox s, ?_⟩, exec_busy hr⟩
  rw [step_nil rfl, stage_setInbox]

/-! ### One response to each accepted command (R43 (b)) -/

/-- From `s` to `t` at most one response is delivered, `t` being ready if one is; and the responses delivered with the
commands not yet answered have grown by `accepted`. -/
def accounted (s t : State) (accepted : Nat) : Prop :=
  (t.sent = s.sent ∨ ∃ r, t.sent = r :: s.sent ∧ t.ready = true) ∧
  t.sent.length + unanswered t = s.sent.length + unanswered s + accepted

theorem unanswered_ready {s : State} (h : s.ready = true) : unanswered s = 0 := if_pos h

theorem unanswered_busy {s : State} (h : s.ready = false) : unanswered s = 1 := if_neg (by simp [h])

/-- Nothing is delivered, and the engine stays ready or stays busy. -/
theorem accounted_silent {s t : State} (hsent : t.sent = s.sent) (hready : t.ready = s.ready) : accounted s t 0 :=
  ⟨.inl hsent, by rw [hsent, unanswered, hready]; rfl⟩

/-- A command in progress is answered. -/
theorem accounted_answer {s t : State} {r : Response} (hs : s.ready = false) (ht : t.ready = true)
    (hsent : t.sent = r :: s.sent) : accounted s t 0 :=
  ⟨.inr ⟨r, hsent, ht⟩, by rw [hsent, unanswered_busy hs, unanswered_ready ht]; rfl⟩

/-- A command is accepted and stays in progress. -/
theorem accounted_begun {s t : State} (hs : s.ready = true) (ht : t.ready = false) (hsent : t.sent = s.sent) :
    accounted s t 1 :=
  ⟨.inl hsent, by rw [hsent, unanswered_ready hs, unanswered_busy ht]⟩

/-- A command is accepted and answered. -/
theorem accounted_completed {s t : State} {r : Response} (hs : s.ready = true) (ht : t.ready = true)
    (hsent : t.sent = r :: s.sent) : accounted s t 1 :=
  ⟨.inr ⟨r, hsent, ht⟩, by rw [hsent, unanswered_ready hs, unanswered_ready ht]; rfl⟩

/-- No stage inside a SAMPLE answers, and none leaves the engine idle. -/
theorem sampleStage_silent (h : Half) (st : SampleStage) {s : State} (hs : s.ready = false) :
    (sampleStage h st s).sent = s.sent ∧ (sampleStage h st s).ready = false := by
  cases st with
  | scan =>
    change (scanStage h s).sent = s.sent ∧ (scanStage h s).ready = false
    rcases scanStage_cases h s with ⟨_, e⟩ | ⟨_, _, _, e⟩ | ⟨_, _, _, e⟩ | ⟨_, _, e⟩ <;> rw [e]
    · cases h <;> exact ⟨rfl, rfl⟩
    · exact ⟨rfl, rfl⟩
    · cases h <;> exact ⟨rfl, rfl⟩
    · exact ⟨rfl, hs⟩
  | _ => exact ⟨rfl, rfl⟩

/-- A stage accepts nothing; the last one of a command answers it. -/
theorem accounted_stage (s : State) : accounted s (stage s) 0 := by
  cases hr : s.ready with
  | true => rw [stage_idle hr]; exact accounted_silent rfl rfl
  | false =>
    cases h : s.ph with
    | idle => exact absurd ((State.ready_iff s).2 h) (by simp [hr])
    | conCheck seed =>
      cases ho : isOdd seed with
      | false => rw [stage_conCheck_even h ho]; exact accounted_answer hr rfl rfl
      | true => rw [stage_conCheck_odd h ho]; exact accounted_silent rfl hr.symm
    | conInit seed => rw [stage_conInit h]; exact accounted_answer hr rfl rfl
    | advCheck =>
      cases hv : s.gv with
      | false => rw [stage_advCheck_invalid h hv]; exact accounted_answer hr rfl rfl
      | true => rw [stage_advCheck_valid h hv]; exact accounted_silent rfl hr.symm
    | advSquare => rw [stage_advSquare h]; exact accounted_silent rfl hr.symm
    | advWeyl => rw [stage_advWeyl h]; exact accounted_silent rfl hr.symm
    | advSum => rw [stage_advSum h]; exact accounted_silent rfl hr.symm
    | advRotate => rw [stage_advRotate h]; exact accounted_silent rfl hr.symm
    | advOut => rw [stage_advOut h]; exact accounted_answer hr rfl rfl
    | drvSplit => rw [stage_drvSplit h]; exact accounted_silent rfl hr.symm
    | drvLut => rw [stage_drvLut h]; exact accounted_silent rfl hr.symm
    | drvB2 => rw [stage_drvB2 h]; exact accounted_silent rfl hr.symm
    | drvInit => rw [stage_drvInit h]; exact accounted_silent rfl hr.symm
    | drvLoad => rw [stage_drvLoad h]; exact accounted_silent rfl hr.symm
    | drvSample half st =>
      obtain ⟨hsent, hready⟩ := sampleStage_silent half st hr
      rw [stage_drvSample h]; exact accounted_silent hsent (hready.trans hr.symm)
    | drvPack => rw [stage_drvPack h]; exact accounted_answer hr rfl (respondSeed_sent s)

/-- A command carried out on a ready engine is answered, or leaves the engine busy (log 7). -/
theorem accounted_exec {i : Instr} {s t : State} (hr : s.ready = true) (h : exec i s = .next t) : accounted s t 1 := by
  obtain ⟨st, rfl⟩ | ⟨seed, _, _, rfl⟩ | ⟨_, _, rfl⟩ | ⟨index, _, rfl⟩ := exec_cases hr h
  · exact accounted_completed hr rfl rfl
  · exact accounted_completed hr rfl rfl
  · exact accounted_completed hr rfl rfl
  · obtain ⟨hready, hsent⟩ | ⟨hready, hsent⟩ := derive_sent index s
    · exact accounted_begun hr hready hsent
    · exact accounted_completed hr hready hsent

/-- A command accepted in the finer grain stands at its first stage; the reserved one is answered (log 10). -/
theorem accounted_accept {s : State} (hr : s.ready = true) (i : Instr) : accounted s (accept i s) 1 := by
  cases i with
  | illegal => exact accounted_completed hr rfl rfl
  | construct seed => exact accounted_begun hr rfl rfl
  | advance => exact accounted_begun hr rfl rfl
  | deriveSeed index => exact accounted_begun hr rfl rfl

theorem accepting_busy {s : State} (h : s.ready = false) : accepting s = false := by rw [accepting, h]; rfl

/-- Settles O40: a step accepts by `exec` or by `accept`, and is otherwise a stage. -/
theorem oneResponsePerAcceptedCommand : Obligations.OneResponsePerAcceptedCommand := by
  intro s t h hreset
  show accounted s t (if accepting s then 1 else 0)
  obtain ⟨hi, rfl⟩ | ⟨rest, hi, rfl⟩ | ⟨rest, hi, _⟩ | ⟨c, rest, hi, hr, he⟩ | ⟨c, rest, hi, hr, rfl⟩ |
    ⟨c, rest, _, hr, rfl⟩ := step_cases h
  · have none_accepted : accepting s = false := by simp [accepting, hi]
    rw [none_accepted]; exact accounted_stage s
  · have none_accepted : accepting s = false := by simp [accepting, hi]
    rw [none_accepted]; exact accounted_stage (s.setInbox rest)
  · exact absurd hi (hreset rest)
  · have one_accepted : accepting s = true := by simp [accepting, hi, hr]
    rw [one_accepted]; exact accounted_exec (s := s.setInbox rest) hr he
  · have one_accepted : accepting s = true := by simp [accepting, hi, hr]
    rw [one_accepted]; exact accounted_accept (s := s.setInbox rest) hr (decode c)
  · rw [accepting_busy hr]; exact accounted_stage s

end Sys2Proof.Machine
end

section
/-! The datapath units as words and as numbers (40_datapath_units.md R47 to R54). The numbers are those of
Laws/Datapath.lean (`sqr64_toNat` to `pack_toNat`); here stand the laws on words and the corner cases. -/

namespace Sys2Proof.Machine

/-! ### The generator's units (R47 to R50) -/

/-- R47: a square whose operand has a zero low half is a multiple of 2^64. -/
theorem sqr64_eq_zero {v : U64} (h : v.toNat % 2 ^ 32 = 0) : sqr64 v = 0 := by
  obtain ⟨k, hk⟩ := Nat.dvd_of_mod_eq_zero h
  have square_eq : v.toNat ^ 2 = 2 ^ 64 * k ^ 2 := by rw [hk]; ring
  apply BitVec.eq_of_toNat_eq
  rw [sqr64_toNat, square_eq, Nat.mul_mod_right]; rfl

/-- R47: the largest operand whose square fits. -/
theorem square_fits_iff (n : Nat) : n ^ 2 < 2 ^ 64 ↔ n ≤ 0xFFFFFFFF := by
  have cancel_square : n ^ 2 < (2 ^ 32) ^ 2 ↔ n < 2 ^ 32 := Nat.pow_lt_pow_iff_left (by decide)
  omega

/-- R47: reduction modulo 2^64 keeps the parity of the square, which is that of the operand. -/
theorem sqr64_parity (v : U64) : (sqr64 v).toNat % 2 = v.toNat % 2 := by
  rw [sqr64_toNat, Nat.mod_mod_of_dvd _ (by decide), Nat.pow_mod]
  obtain h | h := Nat.mod_two_eq_zero_or_one v.toNat <;> rw [h]

/-- Settles O7, by `sqr64_toNat`, `sqr64_eq_zero`, `square_fits_iff` and `sqr64_parity`. -/
theorem squarerTruncatesTheSquare : Obligations.SquarerTruncatesTheSquare :=
  ⟨fun v => ⟨sqr64_toNat v, sqr64_eq_zero, square_fits_iff v.toNat, sqr64_parity v⟩, by decide⟩

theorem add64_zero (p : U64) : add64 p 0 = p := BitVec.add_zero p

theorem zero_add64 (q : U64) : add64 0 q = q := BitVec.zero_add q

/-- Settles O8: the uses of the adder are the equations of the generator step and of `startValue`. -/
theorem adderDiscardsTheCarry : Obligations.AdderDiscardsTheCarry :=
  ⟨fun p q => ⟨add64_toNat p q, add64_zero p⟩, fun C => ⟨genStep_w C, genStep_x C⟩, startValue_initial, by decide⟩

/-- R49: the source's formula. As a number `v << 32` is the low half moved up and `v >> 32` the high half, which lies
below it, so that OR is their sum. -/
theorem rot32_eq_shifts (v : U64) : rot32 v = (v >>> 32) ||| (v <<< 32) := by
  have high_half : (v >>> 32).toNat = v.toNat / 2 ^ 32 := by
    rw [BitVec.toNat_ushiftRight, Nat.shiftRight_eq_div_pow]
  have low_half : (v <<< 32).toNat = 2 ^ 32 * (v.toNat % 2 ^ 32) := by
    rw [BitVec.toNat_shiftLeft, Nat.shiftLeft_eq]; omega
  have high_lt : v.toNat / 2 ^ 32 < 2 ^ 32 := by have := v.isLt; omega
  apply BitVec.eq_of_toNat_eq
  rw [rot32_toNat, BitVec.toNat_or, high_half, low_half, Nat.two_pow_add_eq_or_of_lt high_lt, Nat.or_comm]

/-- R49: no bit position is set by both shifts. -/
theorem half_shifts_disjoint (v : U64) : (v >>> 32) &&& (v <<< 32) = 0 := by
  apply BitVec.eq_of_getLsbD_eq
  intro i hi
  by_cases h : i < 32
  · simp [h]
  · have above : v.getLsbD (32 + i) = false := BitVec.getLsbD_of_ge v _ (by omega)
    simp [above]

/-- R49: rotating right by 32 is the source's formula as it stands. -/
theorem rot32_eq_rotateRight (v : U64) : rot32 v = v.rotateRight 32 := rot32_eq_shifts v

/-- R49: rotating left by 32 is the same two shifts in the other order. -/
theorem rot32_eq_rotateLeft (v : U64) : rot32 v = v.rotateLeft 32 := by
  rw [rot32_eq_shifts, BitVec.or_comm]; rfl

theorem rot32_rot32 (v : U64) : rot32 (rot32 v) = v := by
  apply BitVec.eq_of_toNat_eq
  rw [rot32_toNat, rot32_toNat]
  have := v.isLt
  omega

/-- Settles O9, by `rot32_eq_shifts`: each rotation is the source's formula, with the shifts in one or the other
order. -/
theorem rotatorSwapsTheHalves : Obligations.RotatorSwapsTheHalves :=
  ⟨fun v => ⟨rot32_toNat v, rot32_eq_shifts v, half_shifts_disjoint v, rot32_eq_rotateLeft v, rot32_eq_rotateRight v,
    rot32_rot32 v⟩, by decide⟩

/-- R50: a step returns the high half of its stage 3 sum. -/
theorem genStep_out_toNat (C : Context) :
    (genStep C).2.toNat = (add64 (sqr64 C.x) (add64 C.w C.s)).toNat / 2 ^ 32 := by
  rw [genStep_out, low32_rot32_toNat]

/-- Settles O10, by `low32_rot32_toNat`: the truncation after the rotation is the high half. -/
theorem outputIsTheHighHalfOfTheSum : Obligations.OutputIsTheHighHalfOfTheSum :=
  ⟨fun v => ⟨low32_toNat v, low32_rot32_toNat v⟩, genStep_out_toNat, by decide⟩

/-! ### The seed deriver's units (R51 to R54) -/

theorem mul64_comm (p q : U64) : mul64 p q = mul64 q p := BitVec.mul_comm p q

theorem mul64_zero (p : U64) : mul64 p 0 = 0 := BitVec.mul_zero

theorem mul64_one (p : U64) : mul64 p 1 = p := BitVec.mul_one p

theorem mul64_assoc (p q r : U64) : mul64 (mul64 p q) r = mul64 p (mul64 q r) := BitVec.mul_assoc p q r

/-- R51: reducing after each multiplication is reducing once at the end. -/
theorem mul64_mul64_toNat (p q r : U64) :
    (mul64 (mul64 p q) r).toNat = p.toNat * q.toNat * r.toNat % 2 ^ 64 := by
  rw [mul64_toNat, mul64_toNat, Nat.mod_mul_mod]

theorem add64_mul64 (p q r : U64) : add64 (mul64 p r) (mul64 q r) = mul64 (add64 p q) r := BitVec.add_mul.symm

theorem sqr64_eq_mul64 (v : U64) : sqr64 v = mul64 v v := rfl

/-- Settles O11: the words of 64 bits are a commutative ring, and `mul64` and `add64` are its operations. -/
theorem multiplierTruncatesTheProduct : Obligations.MultiplierTruncatesTheProduct :=
  ⟨fun p q => ⟨mul64_toNat p q, mul64_comm p q, mul64_zero p, mul64_one p⟩,
    fun p q r => ⟨mul64_assoc p q r, mul64_mul64_toNat p q r, add64_mul64 p q r⟩, sqr64_eq_mul64, by decide⟩

theorem divide_toNat (a b : U64) : (divide a b).toNat = a.toNat / b.toNat := BitVec.toNat_udiv

theorem remainder_toNat (a b : U64) : (remainder a b).toNat = a.toNat % b.toNat := BitVec.toNat_umod

/-- R52: the dividend is put together from quotient and remainder, with no wrap-around. -/
theorem divide_add_remainder (a b : U64) : a.toNat = b.toNat * (divide a b).toNat + (remainder a b).toNat := by
  rw [divide_toNat, remainder_toNat, Nat.div_add_mod]

theorem remainder_lt {b : U64} (hb : 0 < b.toNat) (a : U64) : (remainder a b).toNat < b.toNat := by
  rw [remainder_toNat]; exact Nat.mod_lt _ hb

/-- R52: the quotient is the largest number whose product with the divisor does not exceed the dividend. -/
theorem le_divide {a b : U64} {q : Nat} (hb : 0 < b.toNat) (h : b.toNat * q ≤ a.toNat) : q ≤ (divide a b).toNat := by
  rw [divide_toNat, Nat.le_div_iff_mul_le hb, Nat.mul_comm]; exact h

/-- R52: the divisor is one of two constants and never 0. -/
theorem divisor_pos {b : U64} (h : b = 100000000 ∨ b = 30) : 0 < b.toNat := by
  obtain rfl | rfl := h <;> decide

/-- Settles O12, by `divide_add_remainder`, `remainder_lt` and `le_divide` for any divisor but 0. -/
theorem dividersAreExact : Obligations.DividersAreExact :=
  ⟨fun a b hb => ⟨divide_add_remainder a b, remainder_lt (divisor_pos hb) a, fun _ => le_divide (divisor_pos hb)⟩,
    fun _ => ⟨BitVec.zero_udiv, BitVec.zero_umod⟩, by decide⟩

/-- R53: the mask 0xF keeps the four lowest bits, so the shifted word is reduced modulo 16. -/
theorem setWidth_nibble (j : U32) (i : U5) : (nibble j i).setWidth 32 = (j >>> i.toNat) &&& 0xF := by
  have mask_eq : (0xF : U32).toNat = 2 ^ 4 - 1 := rfl
  apply BitVec.eq_of_toNat_eq
  rw [BitVec.toNat_setWidth_of_le (by decide), nibble_toNat, BitVec.toNat_and, mask_eq, Nat.and_two_pow_sub_one_eq_mod,
    BitVec.toNat_ushiftRight, Nat.shiftRight_eq_div_pow]

/-- Settles O13, by `setWidth_nibble` and `nibble_toNat`, which hold at every position. -/
theorem nibbleIsAWindow : Obligations.NibbleIsAWindow :=
  ⟨fun j i _ => ⟨setWidth_nibble j i, nibble_toNat j i⟩, by decide⟩

/-- R54: an odd low word is kept. -/
theorem pack_toNat_of_odd {low : U32} (h : low.toNat % 2 = 1) (high : U32) :
    (pack high low).toNat = 2 ^ 32 * high.toNat + low.toNat := by
  rw [pack_toNat]; omega

/-- R54: an even low word has its lowest nibble raised by 1 (90_conflicts.md C4). -/
theorem pack_nibble_of_even {low : U32} (h : low.toNat % 2 = 0) (high : U32) :
    (pack high low).toNat % 16 = low.toNat % 16 + 1 := by
  rw [pack_toNat]; omega

/-- Settles O14, by `pack_toNat`, the rest being its two parities. -/
theorem packerForcesBitZero : Obligations.PackerForcesBitZero :=
  ⟨fun high low => ⟨pack_toNat high low, fun h => pack_toNat_of_odd h high, fun h => pack_nibble_of_even h high⟩,
    by decide⟩

end Sys2Proof.Machine
end

section
/-! The generator step and its closed forms (40_datapath_units.md R56, R57). -/

namespace Sys2Proof.Machine

/-! ### One step (R56) -/

/-- The stage 3 sum of a step as a number. -/
theorem stageSum_toNat (C : Context) :
    (add64 (sqr64 C.x) (add64 C.w C.s)).toNat =
      (C.x.toNat ^ 2 % 2 ^ 64 + (C.w.toNat + C.s.toNat) % 2 ^ 64) % 2 ^ 64 := by
  rw [add64_toNat, sqr64_toNat, add64_toNat]

/-- R56, the whole step. -/
theorem genStep_eq (C : Context) :
    genStep C = (⟨C.s, rot32 (add64 (sqr64 C.x) (add64 C.w C.s)), add64 C.w C.s⟩,
      low32 (rot32 (add64 (sqr64 C.x) (add64 C.w C.s)))) := rfl

/-- R56: the first step after CONSTRUCT, whose stage 3 sum is the seed. -/
theorem genStep_constructed (s : U64) : genStep ⟨s, 0, 0⟩ = (⟨s, rot32 s, s⟩, low32 (rot32 s)) := by
  have square_zero : sqr64 0 = 0 := sqr64_eq_zero rfl
  simp only [genStep_eq, square_zero, zero_add64]

/-- Settles O15: every part of a step is a function of the stage 3 sum (`stageSum_toNat`). -/
theorem genStepComputesItsFiveStages : Obligations.GenStepComputesItsFiveStages := by
  refine ⟨fun C => ⟨genStep_s C, ?weyl, ?output, ?returned⟩, fun s => ⟨?high, ?context⟩, by decide⟩
  case weyl => rw [genStep_w, add64_toNat]
  case output => rw [genStep_x, rot32_toNat, stageSum_toNat]
  case returned => rw [genStep_out_toNat, stageSum_toNat]
  case high => rw [genStep_constructed, low32_rot32_toNat]
  case context => rw [genStep_constructed]

/-- R57: the value returned as bits of the stage 3 sum. -/
theorem genStep_out_eq_extract (C : Context) : (genStep C).2 = (sqr64 C.x + (genStep C).1.w).extractLsb' 32 32 := by
  have in_range (v : U64) : v.toNat / 2 ^ 32 < 2 ^ 32 := by have := v.isLt; omega
  apply BitVec.eq_of_toNat_eq
  rw [genStep_out_toNat, BitVec.extractLsb'_toNat, Nat.shiftRight_eq_div_pow, Nat.mod_eq_of_lt (in_range _)]; rfl

/-! ### The Weyl accumulator after many steps (R57) -/

theorem afterSteps_w (C : Context) (n : Nat) : (afterSteps n C).w = C.w + BitVec.ofNat 64 n * C.s := by
  induction n with
  | zero => exact (BitVec.add_zero C.w).symm.trans (congrArg (C.w + ·) BitVec.zero_mul.symm)
  | succ n ih =>
    calc (afterSteps (n + 1) C).w
        = (C.w + BitVec.ofNat 64 n * C.s) + C.s := by rw [afterSteps_succ, genStep_w, ih, afterSteps_s]; rfl
      _ = C.w + (BitVec.ofNat 64 n + 1#64) * C.s := by rw [BitVec.add_mul, BitVec.one_mul, BitVec.add_assoc]
      _ = C.w + BitVec.ofNat 64 (n + 1) * C.s := by rw [BitVec.ofNat_add]

/-- Two step counts give the same Weyl value when `n * s` and `m * s` agree modulo 2^64. -/
theorem afterSteps_w_eq_iff (C : Context) (n m : Nat) :
    (afterSteps n C).w = (afterSteps m C).w ↔ n * C.s.toNat ≡ m * C.s.toNat [MOD 2 ^ 64] := by
  rw [afterSteps_w, afterSteps_w, BitVec.add_right_inj, ← BitVec.toNat_inj, BitVec.toNat_mul, BitVec.toNat_mul,
    BitVec.toNat_ofNat, BitVec.toNat_ofNat, Nat.mod_mul_mod, Nat.mod_mul_mod]; rfl

/-- R57, full period: an odd `s` is prime to 2^64 and can be cancelled. -/
theorem afterSteps_w_injective {C : Context} (hs : isOdd C.s = true) {n m : Nat} (hn : n < 2 ^ 64) (hm : m < 2 ^ 64)
    (h : (afterSteps n C).w = (afterSteps m C).w) : n = m := by
  have odd_seed : Odd C.s.toNat := Nat.odd_iff.mpr ((isOdd_iff C.s).mp hs)
  have coprime : Nat.Coprime (2 ^ 64) C.s.toNat := (Nat.coprime_two_left.mpr odd_seed).pow_left 64
  exact (((afterSteps_w_eq_iff C n m).mp h).cancel_right_of_coprime coprime).eq_of_lt_of_lt hn hm

/-- R57: with an even `s` the accumulator is back at its start after half the period, `2^63 * s` being a multiple of
2^64. -/
theorem afterSteps_w_even {C : Context} (hs : isOdd C.s = false) :
    (afterSteps 0 C).w = (afterSteps (2 ^ 63) C).w := by
  have even_seed := (isOdd_eq_false_iff C.s).mp hs
  rw [afterSteps_w_eq_iff, Nat.ModEq]
  omega

/-! ### Seed 1 (R57) -/

/-- With `s = 1`, a step from an `x` whose low half is 0 has the number of the step as its stage 3 sum: the square is
0. -/
theorem stageSum_seedOne {n : Nat} (hx : (afterSteps n ⟨1, 0, 0⟩).x = BitVec.ofNat 64 (2 ^ 32 * n)) :
    add64 (sqr64 (afterSteps n ⟨1, 0, 0⟩).x) (add64 (afterSteps n ⟨1, 0, 0⟩).w (afterSteps n ⟨1, 0, 0⟩).s) =
      BitVec.ofNat 64 (n + 1) := by
  have low_zero : (BitVec.ofNat 64 (2 ^ 32 * n)).toNat % 2 ^ 32 = 0 := by rw [BitVec.toNat_ofNat]; omega
  have weyl_eq : (afterSteps n ⟨1, 0, 0⟩).w = BitVec.ofNat 64 n := by
    rw [afterSteps_w]; exact (BitVec.zero_add _).trans (BitVec.mul_one _)
  rw [hx, sqr64_eq_zero low_zero, zero_add64, weyl_eq, afterSteps_s, BitVec.ofNat_add]; rfl

theorem afterSteps_x_seedOne (n : Nat) (hn : n < 2 ^ 32) :
    (afterSteps n ⟨1, 0, 0⟩).x = BitVec.ofNat 64 (2 ^ 32 * n) := by
  induction n with
  | zero => rfl
  | succ n ih =>
    rw [afterSteps_succ, genStep_x, stageSum_seedOne (ih (by omega))]
    apply BitVec.eq_of_toNat_eq
    rw [rot32_toNat, BitVec.toNat_ofNat, BitVec.toNat_ofNat]
    omega

/-- The step number `n + 1` of seed 1 returns the high half of `n + 1`. -/
theorem drawAt_seedOne {n : Nat} (hn : n + 1 < 2 ^ 32) : drawAt ⟨1, 0, 0⟩ n = 0 := by
  have sum_lt : (BitVec.ofNat 64 (n + 1)).toNat < 2 ^ 32 := by rw [BitVec.toNat_ofNat]; omega
  apply BitVec.eq_of_toNat_eq
  rw [drawAt, genStep_out_toNat, stageSum_seedOne (afterSteps_x_seedOne n (by omega)), Nat.div_eq_of_lt sum_lt]; rfl

/-- Settles O17, by the closed form `afterSteps_w` and, for seed 1, induction on the number of steps. -/
theorem closedFormsOfTheStep : Obligations.ClosedFormsOfTheStep := by
  refine ⟨afterSteps_w, fun C hs n m hn hm h => afterSteps_w_injective hs hn hm h, fun C hs => ?even,
    genStep_out_eq_extract, fun n hn => ⟨afterSteps_x_seedOne n hn, fun hpos => drawAt_seedOne (by omega)⟩⟩
  case even => exact ⟨0, 2 ^ 63, by decide, by decide, afterSteps_w_even hs⟩

end Sys2Proof.Machine
end

section
/-! CONSTRUCT and ADVANCE on a ready engine (41_generator.md R58, R59). -/

namespace Sys2Proof.Machine

/-- On a ready engine a response changes nothing but the responses delivered. -/
theorem ready_respond {s : State} (h : s.ready = true) (st : Status) (d : U64) :
    s.respond st d = { s with sent := ⟨st, d⟩ :: s.sent } :=
  State.ext_fields rfl rfl rfl rfl rfl ((State.ready_iff s).mp h).symm rfl rfl

/-- The whole next state of a successful CONSTRUCT (R58). -/
theorem ready_initGenerator {s : State} (h : s.ready = true) (seed : U64) :
    initGenerator seed s = { s with g := ⟨seed, 0, 0⟩, gv := true, sent := ⟨.ok, 0⟩ :: s.sent } :=
  ready_respond (s := (s.setG ⟨seed, 0, 0⟩).setGv true) h .ok 0

/-- Settles O18: the two parities of the seed. -/
theorem constructValidatesParity : Obligations.ConstructValidatesParity := by
  intro seed s hr
  split
  case isTrue even => rw [exec_construct_even hr ((isOdd_eq_false_iff seed).mpr even), ready_errorResponse hr]
  case isFalse notEven =>
    have odd : isOdd seed = true := (isOdd_iff seed).mpr (Nat.mod_two_ne_zero.mp notEven)
    rw [exec_construct_odd hr odd, ready_initGenerator hr]

/-- The whole next state of ADVANCE with a generator (R59). -/
theorem exec_advance_ready {s : State} (hr : s.ready = true) (hv : s.gv = true) :
    exec .advance s = .next { s with
      g := (genStep s.g).1, sent := ⟨.ok, zext64 (genStep s.g).2⟩ :: s.sent } := by
  rw [exec_advance_valid hr hv, ready_respond (s := s.setG (genStep s.g).1) hr]; rfl

/-- R59 (a): the ADVANCE after a successful CONSTRUCT returns the high half of the seed. -/
theorem exec_advance_constructed (seed : U64) (s : State) :
    ∃ (u : State) (d : U64), exec .advance (initGenerator seed s) = .next u ∧
      u.sent = ⟨.ok, d⟩ :: (initGenerator seed s).sent ∧ d.toNat = seed.toNat / 2 ^ 32 := by
  refine ⟨_, zext64 (genStep ⟨seed, 0, 0⟩).2, exec_advance_valid rfl rfl, rfl, ?_⟩
  rw [zext64_toNat, genStep_constructed, low32_rot32_toNat]

theorem rot32_eq_zero_iff (v : U64) : rot32 v = 0 ↔ v = 0 := by
  have rot32_zero : rot32 0 = 0 := rfl
  constructor
  · intro h; rw [← rot32_rot32 v, h, rot32_zero]
  · rintro rfl; exact rot32_zero

/-- An odd `s` is not 0, so the Weyl add moves `w`. -/
theorem genStep_w_ne {C : Context} (hs : isOdd C.s = true) : (genStep C).1.w ≠ C.w := by
  intro unmoved
  have s_zero : C.s = 0 := BitVec.add_right_eq_self.mp unmoved
  rw [s_zero] at hs
  exact absurd hs (by decide)

/-- R59 (b): from `x = 0` the square is 0, and the new `x` is the new `w` rotated. -/
theorem genStep_x_of_zero {C : Context} (hx : C.x = 0) : (genStep C).1.x = rot32 (genStep C).1.w := by
  have square_zero : sqr64 0 = 0 := rfl
  rw [genStep_x, genStep_w, hx, square_zero, zero_add64]

/-- Settles O19: the two answers of ADVANCE, and a step from `x = 0`. -/
theorem advanceStepsTheGenerator : Obligations.AdvanceStepsTheGenerator := by
  refine ⟨?valid, ?invalid, ?afterConstruct, ?fromZero, ?words⟩
  case valid =>
    exact fun s hr hv => ⟨_, exec_advance_ready hr hv, by rw [zext64_toNat, genStep_out_toNat]⟩
  case invalid => exact fun s hr hv => by rw [exec_advance_invalid hr hv, ready_errorResponse hr]
  case afterConstruct =>
    intro seed s t hr ho ht
    rw [exec_construct_odd hr ho] at ht
    cases ht
    exact exec_advance_constructed seed s
  case fromZero =>
    intro C hs hx
    refine ⟨genStep_w_ne hs, genStep_x_of_zero hx, ?_⟩
    rw [genStep_x_of_zero hx, hx, rot32_eq_zero_iff]
  case words => exact fun c hc => (decode_eq_advance_iff c).mpr ((opField_eq_iff c _).mpr hc)

end Sys2Proof.Machine
end

section
/-! A SAMPLE that fills within the draws of one step of the model, and the DERIVE_SEED made of two such (log 7). -/

namespace Sys2Proof.Machine

theorem nibbleStream_add (m n : Nat) (C : Context) :
    nibbleStream C (m + n) = nibbleStream C m ++ nibbleStream (afterSteps m C) n := by
  induction m generalizing C with
  | zero => rw [Nat.zero_add, nibbleStream_zero, List.nil_append]; rfl
  | succ m ih =>
    rw [Nat.add_right_comm, nibbleStream_succ, nibbleStream_succ, ih, List.append_assoc]; rfl

/-- More draws show no fewer values. -/
theorem fillsWithin_mono {C : Context} {d n : Nat} (hdn : d ≤ n) (h : fillsWithin C d) : fillsWithin C n := by
  obtain ⟨more, rfl⟩ := Nat.exists_eq_add_of_le hdn
  obtain ⟨later, extended⟩ :=
    firstSeenAfter_extends (firstSeen (nibbleStream C d)) (nibbleStream (afterSteps d C) more)
  rw [fillsWithin, firstSeen, nibbleStream_add, firstSeenAfter_append, ← firstSeen, extended, List.length_append]
  exact Nat.le_add_right_of_le h

/-- The context after the draws of a SAMPLE that fills: it makes the draws it needs and no more. -/
theorem sampleDraws_filled {C : Context} {d n : Nat} (h : drawsToFill C d) (hdn : d ≤ n) (r : Sampler) :
    (sampleDraws n C (cleared r)).1 = afterSteps d C := by
  obtain ⟨full, short⟩ := h
  exact (Collected.cleared r).ctx n (fun e he => Nat.lt_of_not_le (short e he)) hdn (.inr full)

/-- A SAMPLE that fills within the draws of one step is finished by that step. -/
theorem runHalf_filled {s : State} {d : Nat} (hd : drawsToFill s.t d) (hle : d ≤ Config.drawsPerStep) (h : Half) :
    (runHalf h s).ph = afterHalf h ∧ (runHalf h s).t = afterSteps d s.t := by
  have full := (fillsWithin_iff s.t Config.drawsPerStep s.smp).mp (fillsWithin_mono hle hd.1)
  obtain ⟨notFull, _⟩ | ⟨_, e⟩ := runHalf_cases h s
  · exact absurd notFull full
  · rw [e]; exact ⟨rfl, sampleDraws_filled hd hle s.smp⟩

/-- A DERIVE_SEED whose SAMPLE runs fill within the draws of one step is answered by that step. -/
theorem derive_ready {index : U64} {n1 n2 : Nat} (h : bothFill index n1 n2) (h1 : n1 ≤ Config.drawsPerStep)
    (h2 : n2 ≤ Config.drawsPerStep) (s : State) : (derive index s).ready = true := by
  obtain ⟨fill1, fill2⟩ := h
  rw [← prepareSampling_t index s] at fill1 fill2
  obtain ⟨ph1, t1⟩ := runHalf_filled fill1 h1 .high
  rw [← t1] at fill2
  obtain ⟨ph2, _⟩ := runHalf_filled fill2 h2 .low
  rw [derive, afterHigh_answers ph1 ph2]; rfl

end Sys2Proof.Machine
end

section
/-! The output sequence of one lifetime (41_generator.md R60). -/

namespace Sys2Proof.Machine

/-- One harmless command leaves a ready engine with a generator ready, with the generator stepped if the command is
ADVANCE and unchanged if not. -/
theorem exec_keepsGenerator {i : Instr} {s : State} (hr : s.ready = true) (hv : s.gv = true) (hi : keepsGenerator i) :
    ∃ t, exec i s = .next t ∧ t.ready = true ∧ t.gv = true ∧ t.g = afterSteps ([i].count .advance) s.g := by
  cases i with
  | illegal => exact ⟨_, exec_illegal hr, rfl, hv, rfl⟩
  | construct seed => exact ⟨_, exec_construct_even hr hi, rfl, hv, rfl⟩
  | advance => exact ⟨_, exec_advance_valid hr hv, rfl, hv, rfl⟩
  | deriveSeed index =>
    obtain ⟨n1, n2, fill, h1, h2⟩ := hi
    obtain ⟨g_eq, gv_eq, _⟩ := derive_frame index s
    exact ⟨_, exec_deriveSeed hr index, derive_ready fill h1 h2 s, gv_eq.trans hv, g_eq⟩

/-- Any list of harmless commands steps the generator once for each ADVANCE in it. -/
theorem execAll_keepsGenerator (cs : List Instr) : ∀ {s : State}, s.ready = true → s.gv = true →
    (∀ i ∈ cs, keepsGenerator i) →
    ∃ u, execAll cs s = .next u ∧ u.ready = true ∧ u.gv = true ∧ u.g = afterSteps (cs.count .advance) s.g := by
  induction cs with
  | nil => exact fun hr hv _ => ⟨_, rfl, hr, hv, rfl⟩
  | cons i cs ih =>
    intro s hr hv hcs
    obtain ⟨first, rest⟩ := List.forall_mem_cons.mp hcs
    obtain ⟨t, ht, tr, tv, tg⟩ := exec_keepsGenerator hr hv first
    obtain ⟨u, hu, ur, uv, ug⟩ := ih tr tv rest
    refine ⟨u, by rw [execAll, ht]; exact hu, ur, uv, ?_⟩
    rw [ug, tg, ← afterSteps_add, ← List.count_append, List.singleton_append]

/-- The recurrence of R60: `w`, `x` and the value returned, each from the ones before. -/
theorem afterSteps_recurrence (C : Context) (n : Nat) :
    (afterSteps (n + 1) C).w = add64 (afterSteps n C).w C.s ∧
    (afterSteps (n + 1) C).x = rot32 (add64 (sqr64 (afterSteps n C).x) (afterSteps (n + 1) C).w) ∧
    drawAt C n = low32 (afterSteps (n + 1) C).x := by
  rw [afterSteps_succ]
  refine ⟨?weyl, ?output, ?returned⟩
  case weyl => rw [genStep_w, afterSteps_s]
  case output => rw [genStep_x, genStep_w]
  case returned => rw [drawAt, genStep_out, genStep_x]

/-- Settles O21: the list steps the generator once for each ADVANCE, and the next ADVANCE returns the draw there. -/
theorem outputSequenceIsTheRecurrence : Obligations.OutputSequenceIsTheRecurrence := by
  refine ⟨fun seed s t cs hr ho ht hcs => ?_, afterSteps_recurrence, by decide⟩
  rw [exec_construct_odd hr ho] at ht
  cases ht
  obtain ⟨u, hu, ur, uv, ug⟩ := execAll_keepsGenerator cs (s := initGenerator seed s) rfl rfl hcs
  refine ⟨u, _, hu, ur, ug, exec_advance_valid ur uv, ?_⟩
  rw [State.respond_sent, State.setG_sent, ug]; rfl

end Sys2Proof.Machine
end

section
/-! The stages of DERIVE_SEED before the sampling: whole next states, with the values of the registers they write
(42_seed_deriver.md R64 to R68), and the steps that can write T. -/

namespace Sys2Proof.Machine

/-- The bucket of an index is at most that of the largest one (R64). -/
theorem index_div_bucketWidth_le (index : U64) : index.toNat / 100000000 ≤ 184467440737 := by
  have := index.isLt
  omega

/-- Settles O25: the stages are `splitIndex` and `countCycles`, whose values `splitSound_splitIndex` and
`countCycles_bucket2_toNat` give. -/
theorem splitAndCycleStages : Obligations.SplitAndCycleStages := by
  refine ⟨fun s h => ?split, fun s h => ?cycle⟩
  case split =>
    obtain ⟨sum, below⟩ := splitSound_splitIndex s.orch
    refine ⟨(splitIndex s.orch).bucket, (splitIndex s.orch).offset, stage_drvSplit h, sum, Nat.le_of_lt_succ below, ?_⟩
    rw [splitIndex_bucket_toNat]
    exact index_div_bucketWidth_le s.orch.index
  case cycle =>
    have value := countCycles_bucket2_toNat s.orch
    exact ⟨(countCycles s.orch).bucket2, stage_drvB2 h, value, by omega, by omega⟩

/-- The table index of an index (R65). -/
theorem selectEntry_splitIndex_ti_toNat (o : Orchestrator) :
    (selectEntry (splitIndex o)).ti.toNat = o.index.toNat / 100000000 % 30 := by
  rw [selectEntry_ti_toNat, splitIndex_bucket_toNat]

/-- Settles O26: the stage is `selectEntry`, and one bucket further is one table index further. -/
theorem lutStageSelectsTheEntry : Obligations.LutStageSelectsTheEntry := by
  refine ⟨fun s h => ?stage, fun o p hlt hp => ?adjacent, selectEntry_splitIndex_ti_toNat⟩
  case stage =>
    have index := selectEntry_ti_toNat s.orch
    have entry := tableIndex_val s.orch.bucket
    exact ⟨tableIndex s.orch.bucket, (selectEntry s.orch).ti, stage_drvLut h, entry, index.trans entry.symm, by omega⟩
  case adjacent =>
    have next : (o.index + 100000000).toNat = o.index.toNat + 100000000 := BitVec.toNat_add_of_lt hlt
    rw [selectEntry_splitIndex_ti_toNat, selectEntry_splitIndex_ti_toNat, hp, next]
    omega

/-- The formula of the source (R67), over natural numbers. -/
theorem startValue_initial_toNat (o : Orchestrator) :
    (startValue o).initial.toNat =
      (o.offset.toNat * o.tseed.toNat + 100000000 * (o.bucket2.toNat * o.tseed.toNat)) % 2 ^ 64 := by
  rw [startValue_initial, add64_toNat, mul64_toNat, mul64_toNat, mul64_toNat, bucketWidth_toNat, ← Nat.add_mod,
    Nat.add_mod, Nat.mul_mod_mod, ← Nat.add_mod]

/-- The position of an index is at most the index (R67): no reduction is needed. -/
theorem positionOf_le (index : U64) : positionOf index ≤ index.toNat := by
  unfold positionOf
  omega

/-- Settles O27: the stage is `startValue`, in the source's form and in the form with the position. -/
theorem initialValueForms : Obligations.InitialValueForms := by
  refine ⟨fun s h => ?stage, fun index => ?position, fun index o ho => ?loaded⟩
  case stage =>
    have form := startValue_initial_position s.orch
    refine ⟨(startValue s.orch).initial, stage_drvInit h, startValue_initial_toNat s.orch, form, fun hf hb => ?_⟩
    rw [form, hf, hb]
    exact BitVec.mul_zero
  case position => exact Nat.lt_of_le_of_lt (positionOf_le index) index.isLt
  case loaded => rw [loadedContext_eq_startContext, ho]

/-- The stages that can write T (10_state.md R15). -/
theorem stage_t_cases (s : State) :
    (stage s).t = s.t ∨ s.ph = .drvLoad ∨ ∃ h st, s.ph = .drvSample h st := by
  cases h : s.ph with
  | idle => rw [stage_idle ((State.ready_iff s).2 h)]; exact .inl rfl
  | conCheck seed | conInit seed => exact .inl (stage_generator_scratch (.inr ⟨seed, by simp [h]⟩)).1
  | advCheck | advSquare | advWeyl | advSum | advRotate | advOut =>
    exact .inl (stage_generator_scratch (.inl (by simp [h]))).1
  | drvSplit => rw [stage_drvSplit h]; exact .inl rfl
  | drvLut => rw [stage_drvLut h]; exact .inl rfl
  | drvB2 => rw [stage_drvB2 h]; exact .inl rfl
  | drvInit => rw [stage_drvInit h]; exact .inl rfl
  | drvLoad => exact .inr (.inl rfl)
  | drvSample half st => exact .inr (.inr ⟨half, st, rfl⟩)
  | drvPack => rw [stage_drvPack h]; exact .inl rfl

/-- Acceptance of a command in the finer grain does not write T. -/
theorem accept_t (i : Instr) (s : State) : (accept i s).t = s.t := by cases i <;> rfl

/-- Settles O28: a step that is no reset is a stage (`stage_t_cases`), a command or an acceptance. -/
theorem loadStageBypassesParity : Obligations.LoadStageBypassesParity := by
  refine ⟨fun s h => stage_drvLoad h, fun s t h changed => ?_⟩
  obtain ⟨_, rfl⟩ | ⟨rest, _, rfl⟩ | ⟨rest, hi, _⟩ | ⟨c, rest, hi, hr, he⟩ | ⟨c, rest, _, _, rfl⟩ |
    ⟨c, rest, _, _, rfl⟩ := step_cases h
  · exact .inr (.inr ((stage_t_cases s).resolve_left changed))
  · exact .inr (.inr ((stage_t_cases (s.setInbox rest)).resolve_left changed))
  · exact .inl ⟨rest, hi⟩
  · by_cases hd : ∃ index, decode c = .deriveSeed index
    · obtain ⟨index, hd⟩ := hd
      exact .inr (.inl ⟨c, rest, index, hi, hr, hd⟩)
    · exact absurd (exec_scratch (not_exists.1 hd) he).1 changed
  · exact absurd (accept_t _ (s.setInbox rest)) changed
  · exact .inr (.inr ((stage_t_cases s).resolve_left changed))

end Sys2Proof.Machine
end

section
/-! The answer of a DERIVE_SEED: its packed samples and the registers it leaves (42_seed_deriver.md R63, R69, R70; what
they hold after the response is the model's choice, log 11). -/

namespace Sys2Proof.Machine

/-! ### The result of a SAMPLE -/

/-- A SAMPLE of `n` draws holds the first eight distinct nibbles of its stream (43_sampler.md R72). -/
theorem sampleDraws_a (n : Nat) (C : Context) (r : Sampler) : (sampleDraws n C (cleared r)).2.a = sampleValue C n := by
  apply BitVec.eq_of_toNat_eq
  rw [((Collected.cleared r).sample n).a, sampleValue, placeNibbles_toNat _ (List.length_take_le ..), firstSeen]

/-- Draws after a SAMPLE has filled would not change its result. -/
theorem sampleValue_filled {C : Context} {d n : Nat} (hd : fillsWithin C d) (hdn : d ≤ n) :
    sampleValue C n = sampleValue C d := by
  obtain ⟨more, rfl⟩ := Nat.exists_eq_add_of_le hdn
  obtain ⟨later, extended⟩ :=
    firstSeenAfter_extends (firstSeen (nibbleStream C d)) (nibbleStream (afterSteps d C) more)
  rw [sampleValue, firstSeen, nibbleStream_add, firstSeenAfter_append, ← firstSeen, extended,
    take_eight_append _ _ hd, sampleValue]

/-- A filled SAMPLE is a value of eight distinct nibbles (43_sampler.md R76). -/
theorem sampleValue_distinct {C : Context} {n : Nat} (h : fillsWithin C n) : distinctNibbles (sampleValue C n) := by
  have sound := ((Collected.cleared State.reset.smp).sample n (C := C)).sound
  rw [← sampleDraws_a n C State.reset.smp]
  exact sound.full_distinct ((fillsWithin_iff C n _).1 h)

/-- A SAMPLE that fills within the draws of one step records its result. -/
theorem runHalf_filled_orch {s : State} {d : Nat} (hd : drawsToFill s.t d) (hle : d ≤ Config.drawsPerStep) (h : Half) :
    (runHalf h s).orch = recordHalf h (sampleValue s.t d) s.orch := by
  have full := (fillsWithin_iff s.t Config.drawsPerStep s.smp).1 (fillsWithin_mono hle hd.1)
  obtain ⟨notFull, _⟩ | ⟨_, e⟩ := runHalf_cases h s
  · exact absurd notFull full
  · rw [e, ← sampleValue_filled hd.1 hle, ← sampleDraws_a Config.drawsPerStep s.t s.smp]; rfl

/-! ### DERIVE_SEED -/

/-- The registers that the stages before the sampling write (R64 to R67). -/
theorem prepareSampling_registers (index : U64) (s : State) :
    (prepareSampling index s).orch.index = index ∧
    (prepareSampling index s).orch.bucket.toNat = index.toNat / 100000000 ∧
    (prepareSampling index s).orch.offset.toNat = index.toNat % 100000000 ∧
    (prepareSampling index s).orch.ti.toNat = index.toNat / 100000000 % 30 ∧
    (prepareSampling index s).orch.tseed = Config.table (entryOf index) ∧
    (prepareSampling index s).orch.bucket2.toNat = index.toNat / 100000000 / 30 ∧
    (prepareSampling index s).orch.initial = (startContext index).x := by
  have loaded : loadedContext (prepareSampling index s).orch = startContext index := prepareSampling_t index s
  refine ⟨?index, ?bucket, ?offset, ?ti, congrArg Context.s loaded, ?bucket2, congrArg Context.x loaded⟩
  all_goals rw [prepareSampling_orch]
  case index => rw [startValue_index, countCycles_index, selectEntry_index, splitIndex_index]
  case bucket => rw [startValue_bucket, countCycles_bucket, selectEntry_bucket, splitIndex_bucket_toNat]
  case offset => rw [startValue_offset, countCycles_offset, selectEntry_offset, splitIndex_offset_toNat]
  case ti => rw [startValue_ti, countCycles_ti, selectEntry_splitIndex_ti_toNat]
  case bucket2 =>
    rw [startValue_bucket2, countCycles_bucket2_toNat, selectEntry_bucket, splitIndex_bucket_toNat]

/-- Where a DERIVE_SEED that is answered in one step leaves T, and the two results it records. -/
theorem derive_filled {index : U64} {n1 n2 : Nat} (h : bothFill index n1 n2) (h1 : n1 ≤ Config.drawsPerStep)
    (h2 : n2 ≤ Config.drawsPerStep) (s : State) :
    (derive index s).t = afterSteps n2 (afterSteps n1 (startContext index)) ∧
    (derive index s).orch =
      recordHalf .low (sampleValue (afterSteps n1 (startContext index)) n2)
        (recordHalf .high (sampleValue (startContext index) n1) (prepareSampling index s).orch) := by
  obtain ⟨fill1, fill2⟩ := h
  rw [← prepareSampling_t index s] at fill1 fill2 ⊢
  obtain ⟨ph1, t1⟩ := runHalf_filled fill1 h1 .high
  have orch1 := runHalf_filled_orch fill1 h1 .high
  rw [← t1] at fill2 ⊢
  obtain ⟨ph2, t2⟩ := runHalf_filled fill2 h2 .low
  have orch2 := runHalf_filled_orch fill2 h2 .low
  rw [derive, afterHigh_answers ph1 ph2, respondSeed_t, respondSeed_orch, t2, orch2, orch1]
  exact ⟨rfl, rfl⟩

/-- A DERIVE_SEED that is over after one step has answered with PACK of its registers (R70). -/
theorem derive_answer {index : U64} {s : State} (h : (derive index s).ready = true) :
    (derive index s).sent = ⟨.ok, pack (derive index s).orch.high (derive index s).orch.low⟩ :: s.sent := by
  obtain ⟨busy, _⟩ | ⟨_, answered⟩ := derive_sent index s
  · rw [h] at busy; cases busy
  · exact answered

/-- Settles O33: the state that `derive_filled` describes. -/
theorem deriveSeedCompletes : Obligations.DeriveSeedCompletes := by
  intro index s n1 n2 hr hfill h1 h2
  have ready := derive_ready hfill h1 h2 s
  have sent := derive_answer ready
  obtain ⟨g, gv, inbox⟩ := derive_frame index s
  obtain ⟨t, orch⟩ := derive_filled hfill h1 h2 s
  obtain ⟨hindex, hbucket, hoffset, hti, htseed, hbucket2, hinitial⟩ := prepareSampling_registers index s
  refine ⟨derive index s, exec_deriveSeed hr index, ?_, (State.ready_iff _).1 ready, g, gv, inbox, t, ?_⟩
  · rw [sent, orch]; rfl
  · rw [orch]
    exact ⟨hindex, hbucket, hoffset, hti, htseed, hbucket2, hinitial, rfl, rfl⟩

/-- A DERIVE_SEED that adds a response answers OK with PACK of its registers. -/
theorem exec_deriveSeed_response {index : U64} {s t : State} {r : Response} (h : exec (.deriveSeed index) s = .next t)
    (hsent : t.sent = r :: s.sent) : r = ⟨.ok, pack t.orch.high t.orch.low⟩ := by
  obtain ⟨_, rfl⟩ | ⟨_, rfl⟩ := exec_deriveSeed_eq h
  · exact absurd hsent.symm (List.cons_ne_self _ _)
  · obtain ⟨_, kept⟩ | ⟨_, answered⟩ := derive_sent index s
    · exact absurd (hsent.symm.trans kept) (List.cons_ne_self _ _)
    · exact (List.cons.inj (hsent.symm.trans answered)).1

/-- 95_test_vectors.md, `DERIVE 4`: evaluated, with TABLE[0] of log 5. -/
theorem derive_four :
    (derive 4 State.reset).orch.low = 0xbc653efa ∧ (derive 4 State.reset).sent = [⟨.ok, 0x4fa75198bc653efb⟩] := by
  decide +kernel

/-- Settles O35: a packed seed is odd (`pack_odd`), and a filled SAMPLE distinct (`sampleValue_distinct`). -/
theorem derivedSeedIsOdd : Obligations.DerivedSeedIsOdd := by
  refine ⟨?answer, ?pack, fun C n h => sampleValue_distinct h.1, ?four, ?nibbles⟩
  case answer =>
    intro index s t r h hsent
    obtain rfl := exec_deriveSeed_response h hsent
    exact ⟨rfl, rfl, pack_odd _ _, fun u hu => ⟨_, exec_construct_odd hu (pack_odd _ _), rfl⟩⟩
  case pack =>
    intro s h
    rw [stage_drvPack h]
    exact ⟨respondSeed_sent s, pack_odd _ _⟩
  case four => exact ⟨_, exec_deriveSeed rfl 4, derive_four⟩
  case nibbles => unfold distinctNibbles; decide

end Sys2Proof.Machine
end

section
/-! DERIVE_SEED as a function of its index (42_seed_deriver.md R71): a two-run argument that, unlike `LiveAlike`, asks
nothing of the generator, the tape and the responses of the two states, and keeps T past the response (log 11). -/

namespace Sys2Proof.Machine

/-- The two states are at the same stage of DERIVE_SEED, with the same T and the same results still to be read. -/
def derivesAlike (u v : State) : Prop :=
  u.ph = v.ph ∧ u.t = v.t ∧ liveOrchestrator u.ph u.orch = liveOrchestrator u.ph v.orch

/-- A SAMPLE reads T, and the second one keeps the result of the first. -/
theorem runHalf_derivesAlike {u v : State} {half : Half} (ht : u.t = v.t)
    (hhigh : half = .low → u.orch.high = v.orch.high) : derivesAlike (runHalf half u) (runHalf half v) := by
  have hd : sampleDraws Config.drawsPerStep u.t (cleared u.smp) =
      sampleDraws Config.drawsPerStep v.t (cleared v.smp) := by
    rw [ht]
    exact sampleDraws_cleared 63 v.t u.smp v.smp
  rw [runHalf_eq_afterDraws, runHalf_eq_afterDraws, hd]
  generalize sampleDraws Config.drawsPerStep v.t (cleared v.smp) = p
  by_cases hm : p.2.m < 32
  · rw [afterDraws_more hm, afterDraws_more hm]
    refine ⟨rfl, rfl, ?_⟩
    cases half with
    | high => rfl
    | low => show ({ high := u.orch.high, .. } : Orchestrator) = { high := v.orch.high, .. }; rw [hhigh rfl]
  · rw [afterDraws_full hm, afterDraws_full hm]
    refine ⟨rfl, rfl, ?_⟩
    cases half with
    | high => rfl
    | low =>
      show ({ high := u.orch.high, low := p.2.a, .. } : Orchestrator) = { high := v.orch.high, low := p.2.a, .. }
      rw [hhigh rfl]

/-- DRV_PACK answers alike from the same two results. -/
theorem respondSeed_derivesAlike {u v : State} (h : derivesAlike u v) (hu : u.ph = .drvPack) :
    ∃ r, (respondSeed u).sent = r :: u.sent ∧ (respondSeed v).sent = r :: v.sent := by
  obtain ⟨_, _, horch⟩ := h
  rw [hu] at horch
  have high : u.orch.high = v.orch.high := (congrArg Orchestrator.high horch :)
  have low : u.orch.low = v.orch.low := (congrArg Orchestrator.low horch :)
  exact ⟨_, respondSeed_sent u, by rw [respondSeed_sent, high, low]⟩

/-- The stages after the first SAMPLE end at the same stage with the same T, and add the same responses. -/
theorem afterHigh_derivesAlike {u v : State} (h : derivesAlike u v) :
    (afterHigh u).ph = (afterHigh v).ph ∧ (afterHigh u).t = (afterHigh v).t ∧
    ∃ rs, (afterHigh u).sent = rs ++ u.sent ∧ (afterHigh v).sent = rs ++ v.sent := by
  obtain ⟨hph, ht, horch⟩ := h
  by_cases hu : u.ph = .drvSample .low .clear
  · have hv : v.ph = .drvSample .low .clear := hph ▸ hu
    rw [hu] at horch
    have low := runHalf_derivesAlike (half := .low) ht fun _ => (congrArg Orchestrator.high horch :)
    have ⟨lowPh, lowT, _⟩ := low
    obtain ⟨_, _, _, sentU⟩ := runHalf_frame .low u
    obtain ⟨_, _, _, sentV⟩ := runHalf_frame .low v
    by_cases hp : (runHalf .low u).ph = .drvPack
    · obtain ⟨r, answerU, answerV⟩ := respondSeed_derivesAlike low hp
      rw [sentU] at answerU
      rw [sentV] at answerV
      rw [afterHigh_answers hu hp, afterHigh_answers hv (lowPh ▸ hp), respondSeed_ph, respondSeed_ph, respondSeed_t,
        respondSeed_t]
      exact ⟨rfl, lowT, [r], answerU, answerV⟩
    · rw [afterHigh_busy hu hp, afterHigh_busy hv (lowPh ▸ hp)]
      exact ⟨lowPh, lowT, [], sentU, sentV⟩
  · rw [afterHigh_unfinished hu, afterHigh_unfinished (hph ▸ hu)]
    exact ⟨hph, ht, [], rfl, rfl⟩

/-- Settles O36: both engines prepare T for the index alike, and the sampling reads nothing else. -/
theorem deriveSeedIsAFunctionOfItsIndex : Obligations.DeriveSeedIsAFunctionOfItsIndex := by
  intro index s s' hr hr'
  have sampled : derivesAlike (runHalf .high (prepareSampling index s)) (runHalf .high (prepareSampling index s')) :=
    runHalf_derivesAlike (by rw [prepareSampling_t, prepareSampling_t]) nofun
  obtain ⟨hph, ht, rs, sent, sent'⟩ := afterHigh_derivesAlike sampled
  obtain ⟨_, _, _, kept⟩ := runHalf_frame .high (prepareSampling index s)
  obtain ⟨_, _, _, kept'⟩ := runHalf_frame .high (prepareSampling index s')
  obtain ⟨g, gv, _⟩ := derive_frame index s
  obtain ⟨g', gv', _⟩ := derive_frame index s'
  rw [kept] at sent
  rw [kept'] at sent'
  exact ⟨derive index s, derive index s', rs, exec_deriveSeed hr index, exec_deriveSeed hr' index, sent, sent', hph, ht,
    g, gv, g', gv'⟩

end Sys2Proof.Machine
end

section
/-! The sampler statements (43_sampler.md R72 to R76): what the registers hold for a list of nibbles collected, what one
window and one draw do to them, and the SAMPLE as a whole. -/

namespace Sys2Proof.Machine

/-! ### Lists of nibbles -/

/-- Nothing is added exactly when every value has been seen. -/
theorem firstSeenAfter_eq_self_iff (L ks : List U4) : firstSeenAfter L ks = L ↔ ∀ k ∈ ks, k ∈ L := by
  constructor
  · intro h k hk
    rw [← h, mem_firstSeenAfter]
    exact .inr hk
  · intro h
    induction ks with
    | nil => rfl
    | cons k ks ih =>
      obtain ⟨hk, hks⟩ := List.forall_mem_cons.1 h
      rw [firstSeenAfter_cons, if_pos hk, ih hks]

/-- The windows of a draw are its nibbles from bit 0 up (R73). -/
theorem windowsOf_eq_nibbles (j : U32) : windowsOf j = (List.range 8).map (nibbleAt j) := by
  simp [windowsOf, windowPositions, List.range_succ, nibbleAt, nibble]

/-- A draw is put together from its windows (R73). -/
theorem placeNibbles_windowsOf (j : U32) : placeNibbles (windowsOf j) = j := by
  have digits : (windowsOf j).map BitVec.toNat = (List.range 8).map fun p => j.toNat / 16 ^ p % 16 := by
    rw [windowsOf_eq_nibbles, List.map_map]
    exact List.map_congr_left fun p _ => nibbleAt_toNat j p
  apply BitVec.eq_of_toNat_eq
  rw [placeNibbles_toNat _ (windowsOf_length j).le, nibblesValue, digits, digits_of_number 8 _ j.isLt]

theorem firstSeen_windowsOf_length_le (j : U32) : (firstSeen (windowsOf j)).length ≤ 8 :=
  firstSeenAfter_length_le [] (windowsOf j)

/-- A draw of eight distinct nibbles shows them in its own order, ... -/
theorem firstSeen_windowsOf {j : U32} (h : distinctNibbles j) : firstSeen (windowsOf j) = windowsOf j :=
  firstSeenAfter_of_nodup [] _ ((distinctNibbles_iff j).1 h)

/-- ... and no other draw shows eight. -/
theorem eight_firstSeen_windowsOf_iff (j : U32) : 8 ≤ (firstSeen (windowsOf j)).length ↔ distinctNibbles j := by
  constructor
  · intro h
    by_contra repeated
    have fewer := firstSeenAfter_length_lt [] (windowsOf j) List.nodup_nil ((distinctNibbles_iff j).not.1 repeated)
    exact absurd h (Nat.not_le.2 fewer)
  · intro h
    rw [firstSeen_windowsOf h, windowsOf_length]

/-! ### The registers that hold a list -/

/-- The nibbles taken determine `m`, `a` and `c` (R76). -/
theorem Collected.unique {r r' : Sampler} {L : List U4} (h : Collected r L) (h' : Collected r' L) :
    r'.m = r.m ∧ r'.a = r.a ∧ r'.c = r.c := by
  refine ⟨BitVec.eq_of_toNat_eq (h'.m.trans h.m.symm), BitVec.eq_of_toNat_eq (h'.a.trans h.a.symm), ?_⟩
  have marks : ∀ k : U4, isUsed r'.c k = isUsed r.c k := fun k =>
    Bool.eq_iff_iff.2 ((h'.c k).trans (h.c k).symm)
  apply BitVec.eq_of_getLsbD_eq
  intro b hb
  have mark := marks (BitVec.ofNat 4 b)
  simpa only [isUsed, BitVec.toNat_ofNat, Nat.mod_eq_of_lt hb] using mark

theorem Collected.a_eq_placeNibbles {r : Sampler} {L : List U4} (h : Collected r L) : r.a = placeNibbles L :=
  BitVec.eq_of_toNat_eq (h.a.trans (placeNibbles_toNat L h.len).symm)

/-- A new draw in `j` is no nibble taken. -/
theorem Collected.setJ {r : Sampler} {L : List U4} (h : Collected r L) (j : U32) : Collected { r with j := j } L :=
  ⟨h.nodup, h.len, h.m, h.a, h.c⟩

/-! ### One window -/

/-- What is marked after a window: what was, and the window's value (R74). -/
theorem isUsed_takeWindow (r : Sampler) (v : U4) :
    isUsed (takeWindow r).c v = (isUsed r.c v || v == nibble r.j r.i) := by
  by_cases h : isUsed r.c (nibble r.j r.i) = true
  · rw [takeWindow_used r h]
    by_cases hv : v = nibble r.j r.i
    · subst hv; simp [h]
    · simp [hv]
  · rw [takeWindow_new r h]
    exact isUsed_markUsed _ _ _

/-- The window loop unmarks nothing. -/
theorem isUsed_scanWindows (ws : List U5) : ∀ {r : Sampler} {v : U4}, isUsed r.c v = true →
    isUsed (scanWindows ws r).c v = true := by
  induction ws with
  | nil => exact id
  | cons i ws ih =>
    intro r v h
    have kept : isUsed (takeWindow { r with i := i }).c v = true := by
      rw [isUsed_takeWindow, h, Bool.true_or]
    rw [scanWindows]
    split
    · exact kept
    · exact ih kept

/-- A nibble shifted to position `m` of the accumulator (R75). -/
theorem setWidth_shiftLeft (k : U4) (m : Nat) : k.setWidth 32 <<< m = BitVec.ofNat 32 (2 ^ m * k.toNat) := by
  apply BitVec.eq_of_toNat_eq
  rw [BitVec.toNat_shiftLeft, BitVec.toNat_setWidth_of_le (by decide), BitVec.toNat_ofNat, Nat.shiftLeft_eq,
    Nat.mul_comm]

/-- Settles O29: the two branches of `takeWindow`, and `isUsed_scanWindows` for the draws after it. -/
theorem windowIsTakenOrSkipped : Obligations.WindowIsTakenOrSkipped := by
  refine ⟨fun C r v h => isUsed_scanWindows windowPositions (r := { r with j := (genStep C).2 }) h,
    fun r => ⟨takeWindow_used r, fun unmarked room => ?taken⟩⟩
  case taken =>
    have new : ¬ isUsed r.c (nibble r.j r.i) = true := Bool.eq_false_iff.1 unmarked
    refine ⟨?m, ?a, isUsed_takeWindow r, takeWindow_j r, takeWindow_i r, takeWindow_k r⟩
    all_goals rw [takeWindow_new r new]
    case m =>
      have four : (4 : U6).toNat = 4 := rfl
      show (r.m + 4).toNat = r.m.toNat + 4
      rw [BitVec.toNat_add_of_lt (by omega), four]
    case a => rw [setWidth_shiftLeft]

/-! ### One draw -/

/-- One draw scanned from cleared registers collects its distinct nibbles (R73). -/
theorem collected_first_draw (r : Sampler) (j : U32) :
    Collected (scanWindows windowPositions { cleared r with j := j }) (firstSeen (windowsOf j)) := by
  have scanned := ((Collected.cleared r).setJ j).scan windowPositions (by decide)
  rw [← List.take_of_length_le (firstSeen_windowsOf_length_le j)]
  exact scanned.1

/-- Settles O30: `collected_first_draw`, and a draw is made of its windows. -/
theorem distinctDrawIsTheResult : Obligations.DistinctDrawIsTheResult := by
  refine ⟨windowsOf_eq_nibbles, fun r j => ?collected, fun r j h => ?distinct⟩
  case collected =>
    have scanned := collected_first_draw r j
    exact ⟨scanned.a_eq_placeNibbles, scanned.takenNibbles_eq⟩
  case distinct =>
    have scanned := collected_first_draw r j
    rw [firstSeen_windowsOf h] at scanned
    exact ⟨by rw [scanned.a_eq_placeNibbles, placeNibbles_windowsOf], scanned.m⟩

/-- A draw takes no window exactly when it shows no new value. -/
theorem Collected.draw_m_eq_iff {r : Sampler} {L : List U4} (h : Collected r L) (hl : L.length < 8) (C : Context) :
    (drawAndScan C r).2.m = r.m ↔ firstSeenAfter L (windowsOf (genStep C).2) = L := by
  have drawn : Collected (drawAndScan C r).2 ((firstSeenAfter L (windowsOf (genStep C).2)).take 8) := h.draw C hl
  obtain ⟨new, extended⟩ := firstSeenAfter_extends L (windowsOf (genStep C).2)
  rw [← BitVec.toNat_inj, drawn.m, h.m, extended, List.append_right_eq_self, ← List.length_eq_zero_iff, List.length_take,
    List.length_append]
  omega

/-- The first draw of a SAMPLE takes a window: its lowest one is new. -/
theorem four_le_first_draw_m (C : Context) (r : Sampler) : 4 ≤ (drawAndScan C (cleared r)).2.m.toNat := by
  have lowest : nibble (genStep C).2 0 ∈ firstSeen (windowsOf (genStep C).2) :=
    (mem_firstSeenAfter [] _ _).2 (.inr (List.mem_cons_self ..))
  have count : (drawAndScan C (cleared r)).2.m.toNat = 4 * (firstSeen (windowsOf (genStep C).2)).length :=
    (collected_first_draw r (genStep C).2).m
  have some_taken := List.length_pos_of_mem lowest
  omega

/-- One draw suffices exactly when its eight nibbles are distinct. -/
theorem drawsToFill_one_iff (C : Context) : drawsToFill C 1 ↔ distinctNibbles (genStep C).2 := by
  have one : fillsWithin C 1 ↔ distinctNibbles (genStep C).2 := by
    rw [fillsWithin, nibbleStream_succ, nibbleStream_zero, List.append_nil]
    exact eight_firstSeen_windowsOf_iff _
  have none : ∀ e < 1, ¬ fillsWithin C e := by
    intro e he
    obtain rfl := Nat.lt_one_iff.1 he
    exact Nat.not_succ_le_zero 7
  exact (and_iff_left none).trans one

/-- Settles O32: sound registers are those that hold a list (`Sound.collected`, `Collected.sound`), and the lemmas for a
window, a draw and a SAMPLE say what becomes of it. -/
theorem samplerInvariants : Obligations.SamplerInvariants := by
  refine ⟨fun r => (Collected.cleared r).sound, fun r h => h.takeWindow,
    fun C r n => ((Collected.cleared r).sample n).sound, fun r h full => ?full, four_le_first_draw_m,
    fun C r h room => ?draw, drawsToFill_one_iff, fun C => Nat.not_succ_le_zero 7⟩
  case full =>
    have count := h.popcount
    rw [full] at count
    exact ⟨count, h.full_distinct (by rw [count_lt_32_iff, full]; decide)⟩
  case draw =>
    have held := h.collected
    have short : (takenNibbles r).length < 8 := by have count := held.m; omega
    have unchanged := held.draw_m_eq_iff short C
    refine ⟨?marked, fun hm => ?kept⟩
    case marked =>
      rw [unchanged, firstSeenAfter_eq_self_iff]
      exact forall₂_congr fun k _ => (h.marked k).symm
    case kept =>
      have drawn : Collected (drawAndScan C r).2 ((firstSeenAfter (takenNibbles r) (windowsOf (genStep C).2)).take 8) :=
        held.draw C short
      rw [unchanged.1 hm, List.take_of_length_le short.le] at drawn
      exact (held.unique drawn).2

/-! ### A SAMPLE -/

/-- Settles O31: `Collected.sample` for the registers, `Collected.ctx` for the context. -/
theorem sampleCollectsFirstEightDistinct : Obligations.SampleCollectsFirstEightDistinct := by
  intro C r n
  have start := Collected.cleared r
  have sampled := start.sample n (C := C)
  exact ⟨sampled.m, sampled.a_eq_placeNibbles, sampled.c, fun d fills hdn => sampleDraws_filled fills hdn r,
    fun never => start.ctx n (fun e he => Nat.lt_of_not_le (never e he)) le_rfl (.inl rfl)⟩

end Sys2Proof.Machine
end

section
/-! A DERIVE_SEED answers exactly when both its SAMPLE runs fill (43_sampler.md R77). If they fill, its stages reach the
response, whatever the number of draws; a SAMPLE that never fills is followed by an invariant, `starving`, that every
stage keeps. -/

namespace Sys2Proof.Machine

/-! ### A SAMPLE that fills -/

/-- A SAMPLE whose first draws show eight distinct nibbles makes some least number of draws. -/
theorem exists_drawsToFill {C : Context} (h : ∃ n, fillsWithin C n) : ∃ n, drawsToFill C n := by
  classical exact ⟨Nat.find h, Nat.find_spec h, fun _ => Nat.find_min h⟩

/-- The stages of a SAMPLE from SMP_CLEAR on make its draws, however many are allowed. -/
theorem sample_reaches_draws {h : Half} {s : State} (hph : s.ph = .drvSample h .clear) (n : Nat) :
    reaches s (afterDraws h ((s.setT (sampleDraws n s.t (cleared s.smp)).1).setSmp
      (sampleDraws n s.t (cleared s.smp)).2)) := by
  have clear : stage s = afterDraws h (s.setSmp (cleared s.smp)) := by
    rw [stage_smpClear hph, afterDraws_more ((Collected.cleared s.smp).lt.2 (by decide))]
  exact (reaches_stage clear).trans (draws_reach h n (s.setSmp (cleared s.smp)))

@[simp] theorem finishHalf_g (h : Half) (s : State) : (finishHalf h s).g = s.g := rfl
@[simp] theorem finishHalf_gv (h : Half) (s : State) : (finishHalf h s).gv = s.gv := rfl
@[simp] theorem finishHalf_t (h : Half) (s : State) : (finishHalf h s).t = s.t := rfl
@[simp] theorem finishHalf_orch (h : Half) (s : State) : (finishHalf h s).orch = recordHalf h s.smp.a s.orch := rfl
@[simp] theorem finishHalf_ph (h : Half) (s : State) : (finishHalf h s).ph = afterHalf h := rfl
@[simp] theorem finishHalf_inbox (h : Half) (s : State) : (finishHalf h s).inbox = s.inbox := rfl
@[simp] theorem finishHalf_sent (h : Half) (s : State) : (finishHalf h s).sent = s.sent := rfl

theorem respondSeed_g (s : State) : (respondSeed s).g = s.g := rfl

theorem respondSeed_gv (s : State) : (respondSeed s).gv = s.gv := rfl

theorem respondSeed_inbox (s : State) : (respondSeed s).inbox = s.inbox := rfl

/-- `u` is where a SAMPLE of the half `h` that starts in `s` and makes `n` draws ends, the sampler registers apart
(43_sampler.md R75). -/
structure SampleEnd (h : Half) (n : Nat) (s u : State) : Prop where
  ph : u.ph = afterHalf h
  t : u.t = afterSteps n s.t
  orch : u.orch = recordHalf h (sampleValue s.t n) s.orch
  g : u.g = s.g
  gv : u.gv = s.gv
  inbox : u.inbox = s.inbox
  sent : u.sent = s.sent

/-- The stages of a SAMPLE that fills reach its end. -/
theorem sample_reaches_end {h : Half} {s : State} {n : Nat} (hph : s.ph = .drvSample h .clear)
    (fills : drawsToFill s.t n) : ∃ u, reaches s u ∧ SampleEnd h n s u := by
  have drawn := sample_reaches_draws hph n
  have result := sampleDraws_a n s.t s.smp
  rw [sampleDraws_filled fills le_rfl, afterDraws_full ((fillsWithin_iff s.t n s.smp).1 fills.1)] at drawn
  exact ⟨_, drawn, by constructor <;> simp [result]⟩

/-- T as the first SAMPLE finds it (42_seed_deriver.md R68). -/
theorem prepared_t (index : U64) (s : State) (p : Phase) :
    ((prepareSampling index s).setPh p).t = startContext index := prepareSampling_t index s

/-- The stages of a DERIVE_SEED whose SAMPLE runs both fill reach the response. -/
theorem deriveSeed_reaches_answer {index : U64} {n1 n2 : Nat} (h : bothFill index n1 n2) (s : State) :
    ∃ u, reaches (accept (.deriveSeed index) s) u ∧ u.ready = true ∧ u.inbox = s.inbox ∧
      u.sent = ⟨.ok, derivedSeed index n1 n2⟩ :: s.sent ∧ u.g = s.g ∧ u.gv = s.gv := by
  obtain ⟨fill1, fill2⟩ := h
  unfold derivedSeed
  rw [← prepared_t index s (.drvSample .high .clear)] at fill1 fill2 ⊢
  obtain ⟨u1, run1, end1⟩ := sample_reaches_end rfl fill1
  rw [← end1.t] at fill2
  obtain ⟨u2, run2, end2⟩ := sample_reaches_end end1.ph fill2
  refine ⟨respondSeed u2, (((prepareSampling_reached index s).trans run1).trans run2).trans
    (reaches_stage (stage_drvPack end2.ph)), rfl, ?inbox, ?sent, ?g, ?gv⟩
  case inbox => rw [respondSeed_inbox, end2.inbox, end1.inbox]; rfl
  case sent => rw [respondSeed_sent, end2.sent, end1.sent, end2.orch, end1.orch, end1.t]; rfl
  case g => rw [respondSeed_g, end2.g, end1.g]; rfl
  case gv => rw [respondSeed_gv, end2.gv, end1.gv]; rfl

/-! ### A SAMPLE that never fills -/

/-- From these registers no number of draws fills the SAMPLE. -/
def neverFull (C : Context) (r : Sampler) : Prop := ∀ n, (sampleDraws n C r).2.m < 32

theorem neverFull.room {C : Context} {r : Sampler} (h : neverFull C r) : r.m < 32 := h 0

/-- A draw does not help. -/
theorem neverFull.draw {C : Context} {r : Sampler} (h : neverFull C r) :
    neverFull (genStep C).1 (scanWindows windowPositions { r with j := (genStep C).2 }) := by
  intro n
  have more := h (n + 1)
  rwa [sampleDraws_more h.room] at more

theorem neverFull_cleared {C : Context} (h : ∀ n, ¬ fillsWithin C n) (r : Sampler) : neverFull C (cleared r) :=
  fun n => not_not.1 ((fillsWithin_iff C n r).not.1 (h n))

theorem scanWindows_full {i : U5} {ws : List U5} {r : Sampler} (h : (takeWindow { r with i := i }).m = 32) :
    scanWindows (i :: ws) r = takeWindow { r with i := i } := if_pos h

theorem scanWindows_next {i : U5} {ws : List U5} {r : Sampler} (h : (takeWindow { r with i := i }).m ≠ 32) :
    scanWindows (i :: ws) r = scanWindows ws (takeWindow { r with i := i }) := if_neg h

/-- What T and the sampler registers are at a stage of a SAMPLE that never fills: those of a draw under way, or of a
scan with the windows from `i` on still to come. -/
def starvingAt : SampleStage → Context → Sampler → Prop
  | .clear, T, r => neverFull T (cleared r)
  | .drawSquare, T, r => neverFull T r
  | .drawWeyl, T, r => ∃ C, T = stepSquare C ∧ neverFull C r
  | .drawSum, T, r => ∃ C, T = stepWeyl (stepSquare C) ∧ neverFull C r
  | .drawRotate, T, r => ∃ C, T = stepSum (stepWeyl (stepSquare C)) ∧ neverFull C r
  | .drawOut, T, r => ∃ C, T = (genStep C).1 ∧ neverFull C r
  | .scan, T, r => ∃ ws, consecutive (r.i :: ws) ∧ neverFull T (scanWindows (r.i :: ws) r)

/-- The engine is inside the SAMPLE of the half `h`, which never fills. -/
def starving (h : Half) (s : State) : Prop := ∃ st, s.ph = .drvSample h st ∧ starvingAt st s.t s.smp

theorem starving.busy {h : Half} {s : State} (hs : starving h s) : s.ready = false := by
  obtain ⟨st, hph, _⟩ := hs
  simp [State.ready, hph]

/-- SMP_SCAN goes on to the next window, or after the last one to the next draw. -/
theorem starving_scanStage {h : Half} {s : State} (hph : s.ph = .drvSample h .scan)
    (hs : starvingAt .scan s.t s.smp) : starving h (scanStage h s) := by
  obtain ⟨ws, following, hn⟩ := hs
  have notFull : (takeWindow s.smp).m ≠ 32 := by
    intro full
    have room := hn.room
    rw [scanWindows_full full] at room
    exact absurd (full ▸ room) (by decide)
  rw [scanWindows_next notFull] at hn
  cases ws with
  | nil =>
    have last : (takeWindow s.smp).i = 28 := (takeWindow_i _).trans following
    rw [scanStage_draw h s notFull last hn.room]
    exact ⟨.drawSquare, rfl, hn⟩
  | cons j ws =>
    obtain ⟨notLast, rfl, following⟩ := following
    have index : (takeWindow s.smp).i = s.smp.i := takeWindow_i _
    rw [scanStage_next h s notFull (index ▸ notLast)]
    refine ⟨.scan, hph, ws, ?_, ?_⟩
    · show consecutive (((takeWindow s.smp).i + 4) :: ws)
      rwa [index]
    · show neverFull s.t (scanWindows (((takeWindow s.smp).i + 4) :: ws)
        { takeWindow s.smp with i := (takeWindow s.smp).i + 4 })
      rw [index]
      exact hn

/-- Every stage keeps the engine inside the SAMPLE. -/
theorem starving.stage {h : Half} {s : State} (hs : starving h s) : starving h (stage s) := by
  obtain ⟨st, hph, hs⟩ := hs
  cases st with
  | clear => rw [stage_smpClear hph]; exact ⟨.drawSquare, rfl, hs⟩
  | drawSquare => rw [stage_drawSquare hph]; exact ⟨.drawWeyl, rfl, s.t, rfl, hs⟩
  | drawWeyl =>
    obtain ⟨C, hC, hn⟩ := hs
    rw [stage_drawWeyl hph]; exact ⟨.drawSum, rfl, C, congrArg stepWeyl hC, hn⟩
  | drawSum =>
    obtain ⟨C, hC, hn⟩ := hs
    rw [stage_drawSum hph]; exact ⟨.drawRotate, rfl, C, congrArg stepSum hC, hn⟩
  | drawRotate =>
    obtain ⟨C, hC, hn⟩ := hs
    rw [stage_drawRotate hph]
    exact ⟨.drawOut, rfl, C, (congrArg stepRotate hC).trans (stages_genStep C), hn⟩
  | drawOut =>
    obtain ⟨C, hC, hn⟩ := hs
    have out : stepOut s.t = (genStep C).2 := hC ▸ stepOut_genStep C
    have first : scanWindows windowPositions { s.smp with j := stepOut s.t, i := 0 } =
        scanWindows windowPositions { s.smp with j := (genStep C).2 } :=
      out ▸ scanWindows_ik_unread 0 _ { s.smp with j := stepOut s.t } 0 s.smp.k
    rw [stage_drawOut hph]
    refine ⟨.scan, rfl, _, consecutive_windowPositions, ?_⟩
    show neverFull s.t (scanWindows windowPositions { s.smp with j := stepOut s.t, i := 0 })
    rw [first, hC]
    exact hn.draw
  | scan => rw [stage_scan hph]; exact starving_scanStage hph hs

/-- No stage inside the SAMPLE answers or touches the generator. -/
theorem starving.stage_frame {h : Half} {s : State} (hs : starving h s) :
    (Machine.stage s).sent = s.sent ∧ (Machine.stage s).g = s.g ∧ (Machine.stage s).gv = s.gv := by
  have busy := hs.busy
  obtain ⟨st, hph, _⟩ := hs
  rw [stage_drvSample hph]
  exact ⟨(sampleStage_silent h st busy).1, sampleStage_generator h st s⟩

/-- The engine stays inside the SAMPLE for ever. -/
theorem starving.iterate {h : Half} {s : State} (hs : starving h s) (k : Nat) :
    starving h (Machine.stage^[k] s) ∧ (Machine.stage^[k] s).sent = s.sent ∧ (Machine.stage^[k] s).g = s.g ∧
      (Machine.stage^[k] s).gv = s.gv := by
  induction k with
  | zero => exact ⟨hs, rfl, rfl, rfl⟩
  | succ k ih =>
    obtain ⟨inside, sent, g, gv⟩ := ih
    obtain ⟨sent', g', gv'⟩ := inside.stage_frame
    rw [Function.iterate_succ_apply']
    exact ⟨inside.stage, sent'.trans sent, g'.trans g, gv'.trans gv⟩

/-- A SAMPLE of a context that never shows eight distinct nibbles is such a one from SMP_CLEAR on. -/
theorem starving_clear {h : Half} {s : State} (hph : s.ph = .drvSample h .clear) (never : ∀ n, ¬ fillsWithin s.t n) :
    starving h s := ⟨.clear, hph, neverFull_cleared never s.smp⟩

/-! ### A DERIVE_SEED that is answered -/

/-- The stages are deterministic and a ready engine stays: a ready state lies ahead of every state on the way. -/
theorem reaches.ready_ahead {a b u : State} (hb : reaches a b) (hu : reaches a u) (hr : u.ready = true) :
    reaches b u := by
  obtain ⟨n, rfl⟩ := hb
  obtain ⟨m, rfl⟩ := hu
  refine ⟨m, ?_⟩
  rw [← Function.iterate_add_apply, Nat.add_comm, Function.iterate_add_apply, iterate_stage_ready hr]

/-- A SAMPLE with a ready engine ahead fills. -/
theorem sample_fills {h : Half} {s u : State} (hph : s.ph = .drvSample h .clear) (hu : reaches s u)
    (hr : u.ready = true) : ∃ n, drawsToFill s.t n := by
  refine exists_drawsToFill (by_contra fun never => ?_)
  obtain ⟨k, rfl⟩ := hu
  have busy := ((starving_clear hph (not_exists.1 never)).iterate k).1.busy
  rw [hr] at busy
  cases busy

/-- A DERIVE_SEED with a ready engine ahead fills both its SAMPLE runs. -/
theorem bothFill_of_ready {index : U64} {s u : State} (hu : reaches (accept (.deriveSeed index) s) u)
    (hr : u.ready = true) : ∃ n1 n2, bothFill index n1 n2 := by
  have ahead1 := (prepareSampling_reached index s).ready_ahead hu hr
  obtain ⟨n1, fill1⟩ := sample_fills rfl ahead1 hr
  obtain ⟨u1, run1, end1⟩ := sample_reaches_end rfl fill1
  obtain ⟨n2, fill2⟩ := sample_fills end1.ph (run1.ready_ahead ahead1 hr) hr
  rw [end1.t, prepared_t] at fill2
  rw [prepared_t] at fill1
  exact ⟨n1, n2, fill1, fill2⟩

/-- In either grain, the steps from an accepted DERIVE_SEED on are the stages from a state that its acceptance reaches. -/
theorem runFor_deriveSeed {index : U64} {s : State} {e : HostEvent} (hr : s.ready = true)
    (he : e = .command (encode (.deriveSeed index)) ∨ e = .start (encode (.deriveSeed index))) :
    ∃ b, reaches (accept (.deriveSeed index) (s.setInbox [])) b ∧
      ∀ n, runFor (n + 1) (s.setInbox [e]) = .next (stage^[n] b) := by
  obtain rfl | rfl := he
  · refine ⟨derive index (s.setInbox []), derive_reached index _, fun n => ?_⟩
    have first : step (s.setInbox [.command (encode (.deriveSeed index))]) = .next (derive index (s.setInbox [])) := by
      rw [step_command (s := s.setInbox _) rfl hr, decode_encode]
      exact exec_deriveSeed (s := s.setInbox []) hr index
    obtain ⟨_, _, inbox⟩ := derive_frame index (s.setInbox [])
    rw [runFor_succ first, runFor_stages n inbox]
  · refine ⟨_, reaches_refl _, fun n => ?_⟩
    have run := runFor_start n (encode (.deriveSeed index)) (s := s.setInbox []) hr rfl
    rwa [decode_encode] at run

/-- Settles O34: in either grain a ready engine lies ahead exactly when both SAMPLE runs fill
(`deriveSeed_reaches_answer`, `bothFill_of_ready`), and `starving` holds for ever of one that never fills. -/
theorem deriveSeedRespondsIffSamplesFill : Obligations.DeriveSeedRespondsIffSamplesFill := by
  refine ⟨fun index s e hr he => ?answered, fun h s hph hi never k t run => ?starved⟩
  case answered =>
    obtain ⟨b, accepted, run⟩ := runFor_deriveSeed hr he
    have answer : ∀ n1 n2, bothFill index n1 n2 → ∃ k t, runFor (k + 1) (s.setInbox [e]) = .next t ∧ t.ready = true ∧
        t.inbox = [] ∧ t.sent = ⟨.ok, derivedSeed index n1 n2⟩ :: s.sent ∧ t.g = s.g ∧ t.gv = s.gv := by
      intro n1 n2 fill
      obtain ⟨u, hu, ready, rest⟩ := deriveSeed_reaches_answer fill (s.setInbox [])
      obtain ⟨k, rfl⟩ := accepted.ready_ahead hu ready
      exact ⟨k, _, run k, ready, rest⟩
    refine ⟨fun n1 n2 fill => ?_, fun ⟨k, t, hk, ready⟩ => ?_, fun ⟨n1, n2, fill⟩ => ?_⟩
    · obtain ⟨k, t, ht⟩ := answer n1 n2 fill
      exact ⟨k + 1, t, ht⟩
    · rw [run k] at hk
      cases hk
      exact bothFill_of_ready (accepted.trans ⟨k, rfl⟩) ready
    · obtain ⟨k, t, hk, ready, _⟩ := answer n1 n2 fill
      exact ⟨k, t, hk, ready⟩
  case starved =>
    obtain ⟨inside, rest⟩ := (starving_clear hph never).iterate k
    rw [runFor_stages k hi] at run
    cases run
    exact ⟨inside.busy, rest⟩

end Sys2Proof.Machine
end

section
/-! Errors and safety (60_exceptions.md R79, R82, R83, R86): the reserved command, the status of each command's answer,
and a next state for every step and every run. -/

namespace Sys2Proof.Machine

/-! ### Every step answers (R83, 70_reset_and_hazards.md R100, R101) -/

/-- No run of any length ends in a fault or a refusal. -/
theorem runFor_answers (n : Nat) (s : State) : ∃ t, runFor n s = .next t := by
  induction n generalizing s with
  | zero => exact ⟨s, runFor_zero s⟩
  | succ n ih =>
    obtain ⟨u, first⟩ := step_answers s
    rw [runFor_succ first]
    exact ih u

/-- Settles O45, by `step_answers`, `exec_answers` and induction on the number of steps. -/
theorem everyStepAnswersANextState : Obligations.EveryStepAnswersANextState :=
  ⟨step_answers, exec_answers, runFor_answers⟩

/-! ### The reserved command (R82, 30_encoding.md R40) -/

/-- The words below 2^64 are those with `op` 00. -/
theorem decode_of_lt {c : CmdWord} (h : c.toNat < 2 ^ 64) : decode c = .illegal :=
  (decode_eq_illegal_iff c).mpr ((opField_eq_iff c _).mpr (Nat.div_eq_of_lt h))

/-- Settles O20: `exec` and `accept` give the reserved command the same error response (log 10), which leaves the
registers of a ready engine as they are (`ready_errorResponse`). -/
theorem reservedCommandIsAnswered : Obligations.ReservedCommandIsAnswered := by
  intro c s rest hc hr
  have reserved : decode c = .illegal := decode_of_lt hc
  have answer : (s.setInbox rest).errorResponse .illegalCmd =
      { s with inbox := rest, sent := ⟨.illegalCmd, 0⟩ :: s.sent } := ready_errorResponse (s := s.setInbox rest) hr _
  refine ⟨?exec, ?command, ?start⟩
  case exec => rw [reserved, exec_illegal hr, ready_errorResponse hr]
  case command =>
    rw [step_command (s := s.setInbox _) rfl hr, reserved, ← answer]
    exact exec_illegal (s := s.setInbox rest) hr
  case start =>
    rw [step_start (s := s.setInbox _) rfl hr, reserved, ← answer]
    rfl

/-! ### The status of an answer (R79) -/

/-- The status that R79 gives the answer to a command, by the command and whether there is a generator. -/
def answerStatus (gv : Bool) : Instr → Status
  | .illegal => .illegalCmd
  | .construct seed => if isOdd seed then .ok else .invalidSeed
  | .advance => if gv then .ok else .notConstructed
  | .deriveSeed _ => .ok

theorem answerStatus_eq_invalidSeed_iff (gv : Bool) (i : Instr) :
    answerStatus gv i = .invalidSeed ↔ ∃ seed, i = .construct seed ∧ isOdd seed = false := by
  cases i <;> simp [answerStatus, ite_eq_iff]

theorem answerStatus_eq_notConstructed_iff (gv : Bool) (i : Instr) :
    answerStatus gv i = .notConstructed ↔ i = .advance ∧ gv = false := by
  cases i <;> simp [answerStatus, ite_eq_iff]

theorem answerStatus_eq_illegalCmd_iff (gv : Bool) (i : Instr) : answerStatus gv i = .illegalCmd ↔ i = .illegal := by
  cases i <;> simp [answerStatus, ite_eq_iff]

/-- A command in error is answered by the shared error response, and by nothing else (R86). -/
theorem exec_error {i : Instr} {s : State} (hr : s.ready = true) (he : answerStatus s.gv i ≠ .ok) :
    exec i s = .next (s.errorResponse (answerStatus s.gv i)) := by
  cases i with
  | illegal => exact exec_illegal hr
  | construct seed =>
    cases ho : isOdd seed with
    | false => rw [exec_construct_even hr ho, answerStatus, ho]; rfl
    | true => exact absurd (if_pos ho) he
  | advance =>
    cases hv : s.gv with
    | false => exact exec_advance_invalid hr hv
    | true => exact absurd (if_pos hv) he
  | deriveSeed index => exact absurd rfl he

/-- A command that is not in error answers OK, if it answers in this step. -/
theorem exec_ok {i : Instr} {s t : State} {r : Response} (hr : s.ready = true) (hok : answerStatus s.gv i = .ok)
    (h : exec i s = .next t) (hsent : t.sent = r :: s.sent) : r.status = .ok := by
  cases i with
  | illegal => cases hok
  | construct seed =>
    cases ho : isOdd seed with
    | false => simp [answerStatus, ho] at hok
    | true => rw [exec_construct_odd hr ho] at h; cases h; cases hsent; rfl
  | advance =>
    cases hv : s.gv with
    | false => simp [answerStatus, hv] at hok
    | true => rw [exec_advance_valid hr hv] at h; cases h; cases hsent; rfl
  | deriveSeed index => rw [exec_deriveSeed_response h hsent]

/-- The response to a command on a ready engine has the status of R79. -/
theorem exec_status {i : Instr} {s t : State} {r : Response} (hr : s.ready = true) (h : exec i s = .next t)
    (hsent : t.sent = r :: s.sent) : r.status = answerStatus s.gv i := by
  by_cases hok : answerStatus s.gv i = .ok
  · rw [hok]; exact exec_ok hr hok h hsent
  · rw [exec_error hr hok] at h; cases h; cases hsent; rfl

/-- Settles O49: the status is `answerStatus` (`exec_status`), and an error is answered by the error response alone
(`exec_error`). -/
theorem errorResponsesLeaveNoTrace : Obligations.ErrorResponsesLeaveNoTrace := by
  intro i s t r hr h hsent
  rw [exec_status hr h hsent]
  refine ⟨answerStatus_eq_invalidSeed_iff _ i, answerStatus_eq_notConstructed_iff _ i,
    answerStatus_eq_illegalCmd_iff _ i, fun he => ?_⟩
  rw [exec_error hr he, ready_errorResponse hr] at h
  cases h
  cases hsent
  exact ⟨rfl, rfl⟩

end Sys2Proof.Machine
end

section
/-! Reset, hazards and interleaving (70_reset_and_hazards.md R92, R94, R96, R100). -/

namespace Sys2Proof.Machine

/-! ### The order of the stages of a step (R94) -/

/-- The sum uses the Weyl value after its increment. -/
theorem stepSum_stepWeyl_x (C : Context) : (stepSum (stepWeyl C)).x = add64 C.x (add64 C.w C.s) := rfl

/-- The square and the Weyl add write different registers, and neither reads what the other writes. -/
theorem stepWeyl_stepSquare (C : Context) : stepWeyl (stepSquare C) = stepSquare (stepWeyl C) := rfl

/-- Summing before the Weyl add, every first output after CONSTRUCT would be 0: square and old `w` both are. -/
theorem stepOut_constructed_of_old_weyl (seed : U64) :
    stepOut (stepRotate (stepWeyl (stepSum (stepSquare ⟨seed, 0, 0⟩)))) = 0 := by
  have sum_zero : add64 (sqr64 0) 0 = 0 := by rw [add64_zero, sqr64_eq_zero rfl]
  show low32 (rot32 (add64 (sqr64 0) 0)) = 0
  rw [sum_zero, (rot32_eq_zero_iff 0).mpr rfl]
  rfl

/-- Settles O16: the five stages are GenStep (`stages_genStep`), and their order is what the check value shows. -/
theorem stagesOfAStepCompose : Obligations.StagesOfAStepCompose := by
  refine ⟨fun C => ⟨stages_genStep C, ?_, stepWeyl_stepSquare C, stepSum_stepWeyl_x C⟩, ?checkValue,
    stepOut_constructed_of_old_weyl _⟩
  · rw [stages_genStep, stepOut_genStep]
  case checkValue => rw [genStep_constructed]; decide

/-! ### An idle engine (R100) -/

/-- Settles O50: nothing presented, the step is the stage of an idle engine. -/
theorem idleEngineWaits : Obligations.IdleEngineWaits := by
  intro s hr
  constructor
  · intro hi; rw [step_nil hi, stage_idle hr]
  · intro rest hi; rw [step_wait hi, stage_idle (s := s.setInbox rest) hr]; rfl

/-! ### Reset (R92) -/

/-- A busy engine that a step other than a reset leaves ready has responded: the command in progress is no longer
counted as unanswered (30_encoding.md R43 (b)). -/
theorem step_ready_responds {s t : State} (h : step s = .next t) (hreset : ∀ rest, s.inbox ≠ .reset :: rest)
    (hs : s.ready = false) (ht : t.ready = true) : ∃ r, t.sent = r :: s.sent := by
  obtain ⟨same | ⟨r, sent, _⟩, count⟩ := oneResponsePerAcceptedCommand s t h hreset
  · simp [same, unanswered_busy hs, unanswered_ready ht, accepting_busy hs] at count
  · exact ⟨r, sent⟩

/-- Settles O41: the reset event's fields, and `step_ready_responds` where there is no reset. -/
theorem resetAbandonsTheCommand : Obligations.ResetAbandonsTheCommand := by
  constructor
  · exact fun s rest hi => ⟨_, step_reset hi, rfl, rfl, rfl, rfl⟩
  · intro s t h hs ht
    by_cases hreset : ∃ rest, s.inbox = .reset :: rest
    · exact .inl hreset
    · exact .inr (step_ready_responds h (not_exists.mp hreset) hs ht)

/-! ### Interleaved commands (R96) -/

/-- ADVANCE reads G and `gv` alone: engines that agree on them give the same response and the same next G. -/
theorem exec_advance_alike {s t u v : State} (hs : s.ready = true) (ht : t.ready = true) (hg : t.g = s.g)
    (hgv : t.gv = s.gv) (hu : exec .advance s = .next u) (hv : exec .advance t = .next v) :
    u.sent.head? = v.sent.head? ∧ u.g = v.g := by
  cases valid : s.gv with
  | false =>
    rw [exec_advance_invalid hs valid] at hu
    rw [exec_advance_invalid ht (hgv.trans valid)] at hv
    cases hu; cases hv
    exact ⟨rfl, hg.symm⟩
  | true =>
    rw [exec_advance_valid hs valid] at hu
    rw [exec_advance_valid ht (hgv.trans valid), hg] at hv
    cases hu; cases hv
    exact ⟨rfl, rfl⟩

/-- DERIVE_SEED from any two ready engines answers in this step from both or from neither, and alike (R71). -/
theorem derive_alike (index : U64) {s t : State} (hs : s.ready = true) (ht : t.ready = true) :
    (derive index s).ready = (derive index t).ready ∧
    ((derive index s).ready = true → (derive index s).sent.head? = (derive index t).sent.head?) := by
  obtain ⟨u, v, rs, hu, hv, sentU, sentV, hph, -⟩ := deriveSeedIsAFunctionOfItsIndex index s t hs ht
  rw [exec_deriveSeed hs] at hu
  rw [exec_deriveSeed ht] at hv
  cases hu; cases hv
  refine ⟨by rw [State.ready, State.ready, hph], fun ready => ?_⟩
  have answered := derive_answer ready
  have one : rs = [_] := List.append_cancel_right (sentU.symm.trans answered)
  rw [sentU, sentV, one]
  rfl

/-- Settles O37: DERIVE_SEED keeps G and `gv`, all that ADVANCE reads (`exec_advance_alike`); and it answers alike from
any ready engine (`derive_alike`), as ADVANCE and CONSTRUCT leave one. -/
theorem interleavingChangesNoResponse : Obligations.InterleavingChangesNoResponse := by
  constructor
  · intro index s t u v hs hderive ht hu hv
    rw [exec_deriveSeed hs] at hderive
    cases hderive
    obtain ⟨hg, hgv, _⟩ := derive_frame index s
    exact exec_advance_alike hs ht hg hgv hu hv
  · intro index i s t u v hs hi hexec hu hv
    have not_derive : ∀ index, i ≠ .deriveSeed index := by
      obtain rfl | ⟨seed, rfl⟩ := hi
      · nofun
      · nofun
    obtain ⟨ht, _⟩ := exec_responds not_derive hs hexec
    rw [exec_deriveSeed hs] at hu
    rw [exec_deriveSeed ht] at hv
    cases hu; cases hv
    exact derive_alike index hs ht

end Sys2Proof.Machine
end
